-- ==== Sys2Proof/Word.lean ====
section
/-! DEFINITION. The word types of the bridge core: a byte is 8 bits (rule R10), and every register holds an
unsigned integer of its stated width, with arithmetic modulo 2^N (rule R11), which is what `BitVec` gives. -/

namespace Sys2Proof

/-- A byte: a FIFO entry, a host byte, a command byte, a reply byte (rules R10, R53). -/
abbrev Byte := BitVec 8

/-- A 16-bit value: the serial bit-period divider (rule R37). -/
abbrev Word16 := BitVec 16

/-- A 32-bit value: the busy-timer count and the readback count (rules R31, R96). -/
abbrev Word32 := BitVec 32

end Sys2Proof
end

