-- ==== Sys2Proof/Config.lean ====
section
/-! DEFINITION. What is fixed for one bridge core (the parameters of rule R9) and what the environment chooses
freely in every cycle (rules R49, R188 to R190). The parameters of an implementation are plain data carried beside
the state, so a statement about every state is a statement about every implementation. The values the spec leaves
open are opaque: nothing can be proved of them but their type. -/

namespace Sys2Proof

/-- The implementation parameters of rule R9. No command changes them. -/
structure Params where
  /-- `OUT_DEPTH`: the capacity of the outbound FIFO, in bytes; at least 1. -/
  outDepth : Nat
  /-- `IN_DEPTH`: the capacity of the inbound FIFO, in bytes; at least 1. -/
  inDepth : Nat
  /-- `TCLK_DIV_RESET`: the reset value of the target-clock divider. -/
  tclkDivReset : Byte
  /-- `SCLK_DIV_RESET`: the reset value of the serial bit-period divider. -/
  sclkDivReset : Word16
  /-- `RESET_HOLD_CYCLES`: the number of cycles command `r` asserts the target's reset; at least 1. -/
  resetHoldCycles : Nat
  /-- `F_SYS`: the frequency of the core clock in Hz; above 0. Informative: no rule of the machine reads it
  (notes/assumptions/13). -/
  fSys : Rat
deriving DecidableEq, Repr, Inhabited

/-- The constraints of rule R9: both capacities and the hold time are integers ≥ 1, and `F_SYS > 0`. The ranges of the
two divider reset values are their types. -/
def Params.wf (p : Params) : Bool :=
  decide (1 ≤ p.outDepth) && decide (1 ≤ p.inDepth) && decide (1 ≤ p.resetHoldCycles) && decide (0 < p.fSys)

/-- The frequency of `tclk_out` in Hz for a divider value, the informative relation of rule R104. -/
def Params.tclkFrequency (p : Params) (div : Byte) : Rat := p.fSys / (2 * ((div.toNat : Rat) + 1))

/-- The values the environment puts on the input ports of rule R22 in one cycle. The receive channel is held as a
queue (see `Machine.State.rxChan`), so what the host contributes in a cycle is the bytes that reach that queue. -/
structure Inputs where
  /-- Port `rst`. -/
  rst : Bool
  /-- The host bytes that reach the receive channel during this cycle, in order; they are presented from the next
  cycle on (rules R23, R188, R189). -/
  hostBytes : List Byte
  /-- Port `tx_writable`. -/
  txWritable : Bool
  /-- Port `busy_in`, logical 1 = busy. -/
  busyIn : Bool
  /-- Port `rxd_in`. -/
  rxdIn : Bool
deriving DecidableEq, Repr, Inhabited

namespace Config

/-- `OUT_DEPTH` of the instance `State.reset` stands for: the default of rule R9 (decision D8). -/
def outDepth : Nat := 512

/-- `IN_DEPTH` of the instance `State.reset` stands for: the default of rule R9 (decision D8). -/
def inDepth : Nat := 512

/-- `TCLK_DIV_RESET`: an OPEN parameter of rule R9 (decision D12). Free value: notes/assumptions/1. -/
opaque tclkDivReset : Byte

/-- `SCLK_DIV_RESET`: an OPEN parameter of rule R9 (decision D12). Free value: notes/assumptions/1. -/
opaque sclkDivReset : Word16

/-- `RESET_HOLD_CYCLES - 1`. The parameter of rule R9 is OPEN but at least 1 (decision D20), so its predecessor is
any natural number. Free value: notes/assumptions/1. -/
opaque resetHoldLessOne : Nat

/-- The numerator of `F_SYS`, less 1. Free value: notes/assumptions/1 and 13. -/
opaque fSysNumLessOne : Nat

/-- The denominator of `F_SYS`, less 1. Free value: notes/assumptions/1 and 13. -/
opaque fSysDenLessOne : Nat

/-- `F_SYS` in Hz: an OPEN parameter of rule R9 (decision D12), any positive rational number. -/
def fSys : Rat := ((fSysNumLessOne : Rat) + 1) / ((fSysDenLessOne : Rat) + 1)

/-- The parameters of the instance `State.reset` stands for. -/
def params : Params where
  outDepth := outDepth
  inDepth := inDepth
  tclkDivReset := tclkDivReset
  sclkDivReset := sclkDivReset
  resetHoldCycles := resetHoldLessOne + 1
  fSys := fSys

/-- The inputs of cycle `n` where the state carries no scripted inputs for it: free in every cycle (rules R188 to
R190, decisions D3, D33, D34). Free value: notes/assumptions/2. -/
opaque freeInputs : Nat → Inputs

/-- What port `rx_data` carries in a cycle `n` in which `rx_readable = 0`: rule R22 gives it no meaning then, and no
rule reads it. Free value: notes/assumptions/3. -/
opaque idleRxData : Nat → Byte

end Config

end Sys2Proof
end

