-- ==== Sys2Proof/Machine/HoldCounter.lean ====
section
/-! DEFINITION. The hold counter of command `r` (rules R33, R170), whose width is fixed by a parameter of the instance
(decision D37): the register is its width beside a value of that width. -/

namespace Sys2Proof.Machine

/-- The register `rst_ctr`. No rule changes its width; `Safety.ControlInv` says that it is `holdWidth`. -/
structure HoldCounter where
  /-- How many bits the register has. -/
  width : Nat
  /-- What it holds: an unsigned integer of that width (rule R11). -/
  value : BitVec width
deriving DecidableEq, Repr

/-- The width of `rst_ctr`: the least number of bits that holds `RESET_HOLD_CYCLES - 1`, at least 1 (rule R33). -/
def holdWidth (p : Params) : Nat := Nat.log2 (p.resetHoldCycles - 1) + 1

/-- `rst_ctr` holding `n`, modulo two to its width. -/
def holdOf (p : Params) (n : Nat) : HoldCounter where
  width := holdWidth p
  value := BitVec.ofNat (holdWidth p) n

/-- The integer `rst_ctr` holds. -/
def holdNat (h : HoldCounter) : Nat := h.value.toNat

/-- `rst_ctr == 0`. -/
def holdDone (h : HoldCounter) : Bool := h.value == 0

/-- `rst_ctr - 1`, modulo two to its width (rule R11). -/
def holdNext (h : HoldCounter) : HoldCounter where
  width := h.width
  value := h.value - 1

end Sys2Proof.Machine
end

