-- ==== Sys2Proof/Machine/State.lean ====
section
/-! DEFINITION. The state of the bridge core (10_state.md): every register and both FIFOs of rules R26 to R46, each
at its stated width, beside the environment of rule R49 (the two byte channels and the input ports). The state is the
pair `(S, I)` of rule R20: `ctl` and `prim` are the block's registers `S` at the start of a cycle, and `now` with
`rxChan` gives the inputs `I` of that cycle. -/

namespace Sys2Proof.Machine

/-! ### State enumerations (decision D29: no bit encoding is observable) -/

/-- The dispatcher states of rule R26. -/
inductive Disp where
  | idle
  | dispatch
  | respondVersion
  | flush
  | resetTarget
  | fifoWrite
  | sendTransaction
  | fifoReadback
  | timerReport
  | timerStatus
  | setTclk
  | setSclk
  | respond
deriving DecidableEq, Repr

/-- Which half of FIFO_READBACK is running: register `phase` of rule R26. -/
inductive Phase where
  | arg
  | stream
deriving DecidableEq, Repr

/-- The transaction-engine sub-states of rule R34; `eIdle` is "not running". -/
inductive Eng where
  | eIdle
  | start
  | prepare
  | waitNotBusy
  | clockLow
  | clockHigh
  | writeback
deriving DecidableEq, Repr

/-! ### Registers -/

/-- What only the dispatcher and its transaction engine write (rule R21): the registers of rules R26 to R37, R43 and
R44, and the FIFOs of rules R45 and R46. -/
structure Control where
  /-- The dispatcher state (rule R26). -/
  disp : Disp
  /-- Which half of FIFO_READBACK runs (rule R26). -/
  phase : Phase
  /-- The command byte being executed (rule R27). -/
  cmd : Byte
  /-- The reply byte RESPOND sends (rule R28). -/
  resp : Byte
  /-- The argument bytes received so far, byte `k` in `arg[8k+7:8k]` (rule R29). -/
  arg : BitVec 24
  /-- The byte index in a multi-byte argument or in the timer report (rule R30). -/
  idx : BitVec 2
  /-- How many bytes `R` still has to stream (rule R31). -/
  remaining : Word32
  /-- The count latched for `t` (rule R32). -/
  snap : Word32
  /-- The hold counter of `r`, with its width, which a parameter fixes (rule R33). -/
  rstCtr : HoldCounter
  /-- The transaction-engine sub-state (rule R34). -/
  eng : Eng
  /-- The index of the bit on the line (rule R35). -/
  bit : BitVec 3
  /-- The byte being sent (rule R35). -/
  tx : Byte
  /-- The receive shift register (rule R35). -/
  sr : Byte
  /-- The target-clock divider (rule R36). -/
  tclkDiv : Byte
  /-- The serial bit-period divider (rule R37). -/
  sclkDiv : Word16
  /-- Drives `sclk_out` (rule R43). -/
  sclkR : Bool
  /-- Drives `txd_out` (rule R43). -/
  txdR : Bool
  /-- Drives `trst_out`, logical 1 = target held in reset (rule R44). -/
  trstR : Bool
  /-- The outbound FIFO `OUT`, oldest byte first (rule R45). -/
  fifoOut : List Byte
  /-- The inbound FIFO `IN`, oldest byte first (rule R46). -/
  fifoIn : List Byte
deriving DecidableEq, Repr

/-- What the parts that run in every cycle write, and nothing else does (rule R21): the registers of rules R38 to
R42. -/
structure Primitives where
  /-- The target-clock divider counter (rule R38). -/
  tclkCtr : Byte
  /-- Drives `tclk_out`, the target's main clock (rule R38). -/
  tclkR : Bool
  /-- The serial-clock divider counter (rule R39). -/
  sclkCtr : Word16
  /-- The registered copy of `busy_in` (rule R40). -/
  busyR : Bool
  /-- The previous value of `busyR` (rule R40). -/
  busyP : Bool
  /-- The registered copy of `rxd_in` (rule R41). -/
  rxdR : Bool
  /-- The busy-timer count (rule R42). -/
  count : Word32
  /-- The busy-timer's running flag (rule R42). -/
  running : Bool
deriving DecidableEq, Repr

/-- The combinational outputs toward the host of rule R24. -/
structure HostOutputs where
  /-- Port `rx_ack`. -/
  rxAck : Bool
  /-- Port `tx_we`. -/
  txWe : Bool
  /-- Port `tx_data`, `0x00` where `txWe` is 0. -/
  txData : Byte
deriving DecidableEq, Repr

/-- The state: the block's registers and its environment at the start of a cycle. -/
structure State where
  /-- The parameters of this instance (rule R9). No step changes them. -/
  params : Params
  /-- The registers the dispatcher and the engine write. -/
  ctl : Control
  /-- The registers the primitives write. -/
  prim : Primitives
  /-- The combinational outputs of the cycle just ended: the `O` of `(S', O) = step(S, I)` (rules R20, R24). -/
  out : HostOutputs
  /-- The receive channel: the host bytes presented and not yet consumed, oldest first (rules R23, R116).
  `rx_readable` is 1 exactly when it is not empty, and its head is `rx_data`. -/
  rxChan : List Byte
  /-- The transmit channel: every reply byte the transmit core has accepted, oldest first (rule R23). -/
  sent : List Byte
  /-- The values on the other input ports in this cycle (rule R22). -/
  now : Inputs
  /-- The values they take in the cycles after it; where the list ends they are free (`Config.freeInputs`). -/
  later : List Inputs
  /-- The number of this cycle: the model's own counter, read only to draw free values. -/
  cycle : Nat
deriving DecidableEq, Repr

/-- What stops the machine. There is nothing: the block has no exception, no trap and no fault (rules R180, R186),
and a wait that may never end is a hold, not a fault (rule R182). -/
inductive Fault where
deriving DecidableEq, Repr

/-- Why the model gives an instruction no meaning. -/
inductive Refusal where
  /-- The instruction has no meaning in this model yet: raised only by a refused arm of `exec`, of which there is
  none. Safe: the machine stops where the hardware would go on. -/
  | notModelled (mnemonic : String)
deriving DecidableEq, Repr

/-! ### Reset (rules R25, R201) -/

/-- The reset values of the registers and FIFOs the dispatcher and the engine write (rules R26 to R37, R43 to
R46). -/
def Control.reset (p : Params) : Control where
  disp := .idle
  phase := .arg
  cmd := 0x00
  resp := 0x00
  arg := 0x000000
  idx := 0
  remaining := 0
  snap := 0
  rstCtr := holdOf p 0
  eng := .eIdle
  bit := 0
  tx := 0
  sr := 0
  tclkDiv := p.tclkDivReset
  sclkDiv := p.sclkDivReset
  sclkR := true
  txdR := true
  trstR := false
  fifoOut := []
  fifoIn := []

/-- The reset values of the primitives' registers (rules R38 to R42). -/
def Primitives.reset : Primitives where
  tclkCtr := 0
  tclkR := false
  sclkCtr := 0
  busyR := false
  busyP := false
  rxdR := false
  count := 0
  running := false

/-- The outputs toward the host in a cycle where no rule sets them (rule R24), and in a reset cycle (rule R25). -/
def HostOutputs.quiet : HostOutputs where
  rxAck := false
  txWe := false
  txData := 0x00

/-- The machine in the first cycle with `rst = 0` after reset has been applied (rules R200, R201). The channels are
empty (notes/assumptions/4); every other input of the first cycle is free (notes/assumptions/2). -/
def State.reset : State where
  params := Config.params
  ctl := Control.reset Config.params
  prim := Primitives.reset
  out := HostOutputs.quiet
  rxChan := []
  sent := []
  now := { Config.freeInputs 0 with rst := false }
  later := []
  cycle := 0

end Sys2Proof.Machine
end

