-- ==== Sys2Proof/Machine/Flags.lean ====
section
/-! DEFINITION. Every flag the spec computes: the FIFO predicates (rules R13, R47), the busy-line edges (rule R92) and
the divider ticks (rules R100, R101, R105). The busy-timer's `running` is a register (rule R42), not a flag. -/

namespace Sys2Proof.Machine

/-! ### FIFO predicates, on the content at the start of the cycle -/

/-- `Empty(F)`: `Len(F) == 0`. -/
def fifoEmpty (f : List Byte) : Bool := f.length == 0

/-- `Full(F)`: `Len(F) == DEPTH(F)`. -/
def fifoFull (depth : Nat) (f : List Byte) : Bool := f.length == depth

/-- `readable = not empty` (rule R47). -/
def fifoReadable (f : List Byte) : Bool := !fifoEmpty f

/-- `writable = not full` (rule R47). -/
def fifoWritable (depth : Nat) (f : List Byte) : Bool := !fifoFull depth f

/-! ### Edges of the registered busy line (rule R92) -/

/-- `rise = busy_r and not busy_p`. -/
def rise (p : Primitives) : Bool := p.busyR && !p.busyP

/-- `fall = busy_p and not busy_r`. -/
def fall (p : Primitives) : Bool := p.busyP && !p.busyR

/-! ### Divider ticks (rule R100) -/

/-- A divider with counter `c` and value `d` has a tick exactly when `c >= d`, unsigned. -/
def dividerTick {n : Nat} (c d : BitVec n) : Bool := decide (d.toNat ≤ c.toNat)

/-- The divider's next counter: 0 on a tick, otherwise one more. -/
def dividerNext {n : Nat} (c d : BitVec n) : BitVec n := if dividerTick c d then 0 else c + 1

/-- `tclk_tick` (rule R101). -/
def tclkTick (p : Primitives) (c : Control) : Bool := dividerTick p.tclkCtr c.tclkDiv

/-- `sclk_tick` (rule R105). -/
def sclkTick (p : Primitives) (c : Control) : Bool := dividerTick p.sclkCtr c.sclkDiv

end Sys2Proof.Machine
end

