-- ==== Sys2Proof/Syntax.lean ====
section
/-! DEFINITION. The commands of the bridge core, one constructor per row of spec/opcode_table.json (rules R71, R72).
An operand is the command's whole argument, assembled from its argument bytes as rule R73 says. -/

namespace Sys2Proof

/-- A command: the command byte and its argument. -/
inductive Instr where
  /-- `v`: report version (rule R130). -/
  | version
  /-- `f`: flush both FIFOs (rule R140). -/
  | flush
  /-- `r`: reset the target (rule R170). -/
  | resetTarget
  /-- `w a0`: stage one byte into the outbound FIFO (rule R141). -/
  | stage (a0 : Byte)
  /-- `W`: run the transaction engine until the outbound FIFO is drained (rule R150). -/
  | transact
  /-- `R n`: stream `n` bytes from the inbound FIFO (rule R142). -/
  | readback (n : Word32)
  /-- `t`: report the busy-timer count (rule R131). -/
  | timerReport
  /-- `T`: report the busy-timer running status (rule R132). -/
  | timerStatus
  /-- `s a0`: set the target-clock divider (rule R171). -/
  | setTclk (a0 : Byte)
  /-- `S div`: set the serial bit-period divider (rule R172). -/
  | setSclk (div : Word16)
  /-- An unknown command: any of the 246 bytes that are no opcode (rules R75, R118). -/
  | unknown (b : Byte)
deriving DecidableEq, Repr

end Sys2Proof
end

