-- ==== Sys2Proof/Decode.lean ====
section
/-! DEFINITION. From host bytes to commands and back: the opcode map (rule R72), the length decoding (rule R78), the
little-endian argument assembly (rules R60, R73), the decoder, and after it the encoder (rule R71). -/

namespace Sys2Proof

/-! ### The opcode map (rule R72) -/

/-- The command byte of `v`. -/
def opVersion : Byte := 0x76
/-- The command byte of `f`. -/
def opFlush : Byte := 0x66
/-- The command byte of `r`. -/
def opResetTarget : Byte := 0x72
/-- The command byte of `w`. -/
def opStage : Byte := 0x77
/-- The command byte of `W`. -/
def opTransact : Byte := 0x57
/-- The command byte of `R`. -/
def opReadback : Byte := 0x52
/-- The command byte of `t`. -/
def opTimerReport : Byte := 0x74
/-- The command byte of `T`. -/
def opTimerStatus : Byte := 0x54
/-- The command byte of `s`. -/
def opSetTclk : Byte := 0x73
/-- The command byte of `S`. -/
def opSetSclk : Byte := 0x53

/-- The ten opcodes of rule R72; every other byte is an unknown command (rule R75). -/
def opcodes : List Byte :=
  [opVersion, opFlush, opResetTarget, opStage, opTransact, opReadback, opTimerReport, opTimerStatus, opSetTclk,
    opSetSclk]

/-! ### Argument assembly (rules R60, R73) -/

/-- The 16-bit value with low byte `lo` and high byte `hi`: `{hi, lo}`. -/
def le16 (lo hi : Byte) : Word16 := hi ++ lo

/-- The 32-bit value `{c3, c2, c1, c0}`. -/
def le32 (c0 c1 c2 c3 : Byte) : Word32 := c3 ++ (c2 ++ (c1 ++ c0))

/-- Byte `k` of a value, `v[8k+7:8k]`. -/
def byteAt {n : Nat} (v : BitVec n) (k : Nat) : Byte := v.extractLsb' (8 * k) 8

/-! ### Decoding -/

/-- How many argument bytes follow a command byte. The length of a command is fixed by its first byte alone
(rule R78). -/
def argCount (op : Byte) : Nat :=
  if op = opReadback then 4
  else if op = opSetSclk then 2
  else if op = opStage then 1
  else if op = opSetTclk then 1
  else 0

/-- The command with command byte `op` and argument bytes `a0 .. a3`, of which it uses the first `argCount op`. -/
def instrOf (op a0 a1 a2 a3 : Byte) : Instr :=
  if op = opVersion then .version
  else if op = opFlush then .flush
  else if op = opResetTarget then .resetTarget
  else if op = opStage then .stage a0
  else if op = opTransact then .transact
  else if op = opReadback then .readback (le32 a0 a1 a2 a3)
  else if op = opTimerReport then .timerReport
  else if op = opTimerStatus then .timerStatus
  else if op = opSetTclk then .setTclk a0
  else if op = opSetSclk then .setSclk (le16 a0 a1)
  else .unknown op

/-- Why a list of bytes holds no whole command. No byte VALUE is ever rejected (rule R79); only bytes that have not
arrived yet can be missing. -/
inductive DecodeError where
  /-- There is no byte at all. -/
  | noCommandByte
  /-- The command byte `op` needs `need` argument bytes and only `got` are there. -/
  | missingArguments (op : Byte) (need got : Nat)
deriving DecidableEq, Repr

/-- The first command of a byte stream and the bytes after it (rules R70, R78). -/
def decode : List Byte → Except DecodeError (Instr × List Byte)
  | [] => .error .noCommandByte
  | op :: rest =>
    if rest.length < argCount op then .error (.missingArguments op (argCount op) rest.length)
    else
      .ok (instrOf op (rest.getD 0 0) (rest.getD 1 0) (rest.getD 2 0) (rest.getD 3 0), rest.drop (argCount op))

/-- The bytes of a table word: byte `k` is bits `8k+7..8k`, every bit from `nbits` on is 0, and there are as many
bytes as the longest command has (5, rule R71). -/
def tableBytes (nbits w : Nat) : List Byte :=
  [0, 1, 2, 3, 4].map fun k => BitVec.ofNat 8 ((w % 2 ^ nbits) >>> (8 * k))

/-- The command the decoder reads from a table word. -/
def decodeTableWord (nbits w : Nat) : Option Instr :=
  match decode (tableBytes nbits w) with
  | .ok (i, _) => some i
  | .error _ => none

/-! ### Encoding (rule R71) -/

/-- The bytes of a command, the first one the host sends first. -/
def encode : Instr → List Byte
  | .version => [opVersion]
  | .flush => [opFlush]
  | .resetTarget => [opResetTarget]
  | .stage a0 => [opStage, a0]
  | .transact => [opTransact]
  | .readback n => [opReadback, byteAt n 0, byteAt n 1, byteAt n 2, byteAt n 3]
  | .timerReport => [opTimerReport]
  | .timerStatus => [opTimerStatus]
  | .setTclk a0 => [opSetTclk, a0]
  | .setSclk div => [opSetSclk, byteAt div 0, byteAt div 1]
  | .unknown b => [b]

/-- The command byte of a command: the first byte of its encoding. -/
def opcodeOf (i : Instr) : Byte := (encode i).headD 0

end Sys2Proof
end

