-- ==== Sys2Proof/Machine/Operands.lean ====
section
/-! DEFINITION. The bytes of a command as the block meets them: which of them have been taken, which one the receive
channel presents, and how a multi-byte argument is kept and sent (rules R29, R60, R61). -/

namespace Sys2Proof.Machine

/-! ### The argument register and the report bytes -/

/-- `arg[8k+7:8k] <- b` (rules R29, R142, R172). -/
def setArgByte (arg : BitVec 24) (k : Nat) (b : Byte) : BitVec 24 :=
  (arg &&& ~~~((0xFF : BitVec 24) <<< (8 * k))) ||| (b.setWidth 24 <<< (8 * k))

/-- `{b, arg[23:0]}`: the count of `R` with its last byte `b` (rule R142). -/
def countOf (b : Byte) (arg : BitVec 24) : Word32 := b ++ arg

/-- `{b, arg[7:0]}`: the divider of `S` with its high byte `b` (rule R172). -/
def dividerOf (b : Byte) (arg : BitVec 24) : Word16 := b ++ byteAt arg 0

/-- `{rxd_r, sr[7:1]}`: the sample enters at bit 7 and older samples shift right (rule R155). -/
def shiftIn (rxd : Bool) (sr : Byte) : Byte := BitVec.ofBool rxd ++ sr.extractLsb' 1 7

/-! ### The command in hand -/

/-- How many bytes of the command in hand the dispatcher has taken, where one more may still be taken: the command
byte in IDLE, argument bytes in the argument waits (rules R111, R114). SET_SCLK tells its low byte from its high byte
by `idx == 0` alone (rule R172). -/
def bytesTaken (c : Control) : Nat :=
  match c.disp with
  | .idle => 0
  | .setSclk => if c.idx = 0 then 1 else 2
  | .fifoReadback => 1 + c.idx.toNat
  | _ => 1

/-- The command byte of the command in hand: in IDLE the byte the channel presents, if there is one; in a branch
state the opcode whose branch it is (rule R112); in DISPATCH and RESPOND the byte in `cmd`. -/
def opcodeInHand (s : State) : Option Byte :=
  match s.ctl.disp with
  | .idle => s.rxChan.head?
  | .dispatch => some s.ctl.cmd
  | .respondVersion => some opVersion
  | .flush => some opFlush
  | .resetTarget => some opResetTarget
  | .fifoWrite => some opStage
  | .sendTransaction => some opTransact
  | .fifoReadback => some opReadback
  | .timerReport => some opTimerReport
  | .timerStatus => some opTimerStatus
  | .setTclk => some opSetTclk
  | .setSclk => some opSetSclk
  | .respond => some s.ctl.cmd

/-- Byte `k` of the command in hand beyond its command byte (`k ≥ 1`): an argument byte already taken stands in `arg`
(rule R29), a later one waits in the receive channel (rule R116). A byte that has not arrived is free: no rule reads
it, because the waits test `rx_readable` first. -/
def byteInHand (s : State) (k : Nat) : Byte :=
  if k < bytesTaken s.ctl then byteAt s.ctl.arg (k - 1)
  else s.rxChan.getD (k - bytesTaken s.ctl) (Config.idleRxData s.cycle)

/-- The command in hand in this cycle; none exactly in an IDLE cycle in which no byte is presented. An argument that
has been taken and used up (in RESPOND, or while `R` streams) no longer matters to any rule. -/
def inHand (s : State) : Option Instr :=
  (opcodeInHand s).map fun op =>
    instrOf op (byteInHand s 1) (byteInHand s 2) (byteInHand s 3) (byteInHand s 4)

end Sys2Proof.Machine
end

