-- ==== Sys2Proof/Machine/Ops.lean ====
section
/-! DEFINITION. The operations every command is built from: the FIFO and channel primitives (rules R13, R14), the
parts that run in every cycle (rules R90 to R105), the reset cycle (rule R25), one clock cycle (rules R12, R20, R21),
and the dispatcher states that commands share (rules R111, R113). The block has no exception to take and none to
return from (rules R180, R186), so there is no such operation here. -/

namespace Sys2Proof.Machine

/-! ### Reply bytes (rule R76) -/

/-- `'0'`: the version. -/
def replyVersion : Byte := 0x30
/-- `'.'`: done. -/
def replyDone : Byte := 0x2E
/-- `'!'`: outbound FIFO full, byte dropped. -/
def replyFull : Byte := 0x21
/-- `'?'`: unknown command. -/
def replyUnknown : Byte := 0x3F
/-- `'r'`: busy-timer running. -/
def replyRunning : Byte := 0x72
/-- `'s'`: busy-timer stopped. -/
def replyStopped : Byte := 0x73
/-- What `R` streams in place of a byte when `IN` is empty (rule R142). -/
def filler : Byte := 0xFF

/-! ### FIFO primitives (rules R13, R52 to R54) -/

/-- `Push(F, b)`: append at the end. -/
def push (f : List Byte) (b : Byte) : List Byte := f ++ [b]

/-- `Pop(F)`: remove the oldest byte. -/
def pop (f : List Byte) : List Byte := f.tail

/-- `Head(F)`: the oldest byte; used only where `F` is not empty. -/
def head (f : List Byte) : Byte := f.headD 0

/-! ### What a dispatcher rule sees and does in one cycle -/

/-- What a rule of the dispatcher or the engine may read beside the registers it writes. The raw lines `busy_in` and
`rxd_in` are not in it: every rule reads their registered copies (rule R90). -/
structure Seen where
  /-- The instance's parameters. -/
  params : Params
  /-- The primitives' registers. -/
  prim : Primitives
  /-- Port `rx_readable`. -/
  rxReadable : Bool
  /-- Port `rx_data`. -/
  rxData : Byte
  /-- Port `tx_writable`. -/
  txWritable : Bool
deriving DecidableEq, Repr

/-- What a rule does in a cycle: the registers it leaves, whether it consumes the presented host byte, and the byte it
sends, if any (rules R14, R23). -/
structure Act where
  /-- The registers at the end of the cycle. -/
  ctl : Control
  /-- `rx_ack`. -/
  rxAck : Bool
  /-- The byte handed to the transmit core; `tx_we` is 1 exactly when there is one. -/
  tx : Option Byte
deriving DecidableEq, Repr

/-- Write registers; touch neither channel. With the registers unchanged this is `hold` (rule R15). -/
def setCtl (c : Control) : Act where
  ctl := c
  rxAck := false
  tx := none

/-- `RxTake()`: consume the presented byte, and write registers (rule R14). -/
def rxTake (c : Control) : Act where
  ctl := c
  rxAck := true
  tx := none

/-- `TxPut(b)`: send a byte, and write registers (rule R14). -/
def txPut (b : Byte) (c : Control) : Act where
  ctl := c
  rxAck := false
  tx := some b

/-- `resp <- b; disp <- RESPOND`. -/
def answer (b : Byte) (c : Control) : Control := { c with resp := b, disp := .respond }

/-! ### The parts that run in every cycle -/

/-- The busy-timer's next `count` and `running` (rule R94), in the rule's priority order. -/
def timerNext (p : Primitives) : Word32 × Bool :=
  if rise p && !p.running then (0, true)
  else if fall p then (p.count, false)
  else if p.running then (p.count + 1, true)
  else (p.count, p.running)

/-- The primitives' next registers: the input registers (rules R90, R91), the busy-timer (rule R94) and the two
dividers (rules R101, R102, R105). They read only values of the start of the cycle (rule R21). -/
def primNext (inp : Inputs) (c : Control) (p : Primitives) : Primitives where
  tclkCtr := dividerNext p.tclkCtr c.tclkDiv
  tclkR := if tclkTick p c then !p.tclkR else p.tclkR
  sclkCtr := dividerNext p.sclkCtr c.sclkDiv
  busyR := inp.busyIn
  busyP := p.busyR
  rxdR := inp.rxdIn
  count := (timerNext p).1
  running := (timerNext p).2

/-! ### One clock cycle -/

/-- The inputs of the next cycle: the next scripted ones, or free ones where the script has ended. -/
def nextInputs (s : State) : Inputs := s.later.headD (Config.freeInputs (s.cycle + 1))

/-- What every cycle does to the environment, a reset cycle too: the host's bytes reach the receive channel behind
those not consumed, the accepted reply byte joins the transmit channel, and the inputs move on (rule R23). -/
def envNext (rxAck : Bool) (tx : Option Byte) (s : State) : State :=
  { s with
    rxChan := (if rxAck then s.rxChan.tail else s.rxChan) ++ s.now.hostBytes
    sent := s.sent ++ tx.toList
    out := { rxAck := rxAck, txWe := tx.isSome, txData := tx.getD 0x00 }
    now := nextInputs s
    later := s.later.tail
    cycle := s.cycle + 1 }

/-- A cycle outside reset in which the dispatcher does `a`: all parts act on the values of the start of the cycle
(rules R12, R20, R21). -/
def clockCycle (a : Act) (s : State) : State :=
  { envNext a.rxAck a.tx s with ctl := a.ctl, prim := primNext s.now s.ctl s.prim }

/-- A cycle with `rst = 1`: every register and FIFO takes its reset value, no other rule acts, nothing is consumed and
nothing is sent (rules R25, R200). -/
def resetCycle (s : State) : State :=
  { envNext false none s with ctl := Control.reset s.params, prim := Primitives.reset }

/-- What the dispatcher sees in this cycle when the command in hand has the bytes `bytes`: `rx_readable` tells whether
a byte is presented, and `rx_data` is the first byte of the command not taken yet. -/
def seen (bytes : List Byte) (s : State) : Seen where
  params := s.params
  prim := s.prim
  rxReadable := !s.rxChan.isEmpty
  rxData := bytes.getD (bytesTaken s.ctl) (Config.idleRxData s.cycle)
  txWritable := s.now.txWritable

/-- One clock cycle in which the dispatcher's rule is `rule` and the command in hand has the bytes `bytes`. The reset
input has priority over every rule (rules R25, R185). -/
def runCycle (bytes : List Byte) (rule : Seen → Control → Act) (s : State) : Host.Outcome State Fault Refusal :=
  if s.now.rst then .next (resetCycle s) else .next (clockCycle (rule (seen bytes s) s.ctl) s)

/-! ### The dispatcher states that commands share -/

/-- IDLE (rule R111): take a command byte when one is presented, else hold. -/
def idleRule (v : Seen) (c : Control) : Act :=
  if v.rxReadable then rxTake { c with cmd := v.rxData, disp := .dispatch } else setCtl c

/-- RESPOND (rule R113): send `resp` when the transmit core can accept it, else hold. -/
def respondRule (v : Seen) (c : Control) : Act :=
  if v.txWritable then txPut c.resp { c with disp := .idle } else setCtl c

/-- The argument wait of rule R114: hold while no byte is presented, else take it and act on it in the same cycle. -/
def awaitByte (act : Byte → Control) (v : Seen) (c : Control) : Act :=
  if v.rxReadable then rxTake (act v.rxData) else setCtl c

/-- A command's path through the dispatcher (rules R110, R119): IDLE takes it, DISPATCH makes its entry assignments
(rule R112), its branch state `home` runs its branch rule, RESPOND answers. `t` and `R` never enter RESPOND (rule R77);
what this rule does for them there is notes/assumptions/7. In a cycle in which another command's
branch state runs, this one is not in hand: it waits in the receive channel and does nothing (rules R65, R116). -/
def commandRule (home : Disp) (entry : Seen → Control → Control) (branch : Seen → Control → Act)
    (v : Seen) (c : Control) : Act :=
  if c.disp = .idle then idleRule v c
  else if c.disp = .dispatch then setCtl (entry v c)
  else if c.disp = .respond then respondRule v c
  else if c.disp = home then branch v c
  else setCtl c

/-- A cycle of IDLE in which no command is in hand (rule R182, wait W1). -/
def idleCycle (s : State) : Host.Outcome State Fault Refusal := runCycle [] idleRule s

end Sys2Proof.Machine
end

