-- ==== Sys2Proof/Machine/FifoCommands.lean ====
section
/-! DEFINITION. The FIFO commands `f`, `w` and `R` (43_cmd_fifo.md). -/

namespace Sys2Proof.Machine

/-- FLUSH (rule R140): discard one byte of each FIFO that has one, until both are empty. -/
def flushRule (_ : Seen) (c : Control) : Act :=
  if fifoEmpty c.fifoOut && fifoEmpty c.fifoIn then setCtl (answer replyDone c)
  else
    setCtl
      { c with
        fifoOut := if fifoEmpty c.fifoOut then c.fifoOut else pop c.fifoOut
        fifoIn := if fifoEmpty c.fifoIn then c.fifoIn else pop c.fifoIn }

/-- `f`: flush both FIFOs (rule R140, conflict C1). -/
def execFlush (s : State) : Host.Outcome State Fault Refusal :=
  runCycle (encode .flush) (commandRule .flush (fun _ c => { c with disp := .flush }) flushRule) s

/-- FIFO_WRITE (rule R141): the argument byte is stored and acknowledged, or dropped and reported when `OUT` is
full. -/
def fifoWriteRule (v : Seen) (c : Control) : Act :=
  awaitByte
    (fun b =>
      if fifoFull v.params.outDepth c.fifoOut then answer replyFull c
      else answer replyDone { c with fifoOut := push c.fifoOut b })
    v c

/-- `w a0`: stage one byte into the outbound FIFO (rule R141). -/
def execStage (a0 : Byte) (s : State) : Host.Outcome State Fault Refusal :=
  runCycle (encode (.stage a0)) (commandRule .fifoWrite (fun _ c => { c with disp := .fifoWrite }) fifoWriteRule) s

/-- FIFO_READBACK in phase ARG (rule R142): the four count bytes, least-significant first. -/
def readbackArgRule (v : Seen) (c : Control) : Act :=
  awaitByte
    (fun b =>
      if c.idx = 3 then { c with remaining := countOf b c.arg, phase := .stream }
      else { c with arg := setArgByte c.arg c.idx.toNat b, idx := c.idx + 1 })
    v c

/-- FIFO_READBACK in phase STREAM (rule R142): a stored byte if there is one, else the filler; no ack. -/
def readbackStreamRule (v : Seen) (c : Control) : Act :=
  if c.remaining = 0 then setCtl { c with disp := .idle }
  else if v.txWritable then
    if fifoEmpty c.fifoIn then txPut filler { c with remaining := c.remaining - 1 }
    else txPut (head c.fifoIn) { c with fifoIn := pop c.fifoIn, remaining := c.remaining - 1 }
  else setCtl c

/-- FIFO_READBACK (rule R142). -/
def fifoReadbackRule (v : Seen) (c : Control) : Act :=
  match c.phase with
  | .arg => readbackArgRule v c
  | .stream => readbackStreamRule v c

/-- `R n`: bulk readback of the inbound FIFO (rule R142). -/
def execReadback (n : Word32) (s : State) : Host.Outcome State Fault Refusal :=
  runCycle (encode (.readback n))
    (commandRule .fifoReadback (fun _ c => { c with idx := 0, phase := .arg, disp := .fifoReadback })
      fifoReadbackRule) s

end Sys2Proof.Machine
end

