-- ==== Sys2Proof/Machine/Status.lean ====
section
/-! DEFINITION. The status commands `v`, `t` and `T` (42_cmd_status.md). -/

namespace Sys2Proof.Machine

/-- RESPOND_VERSION (rule R130). -/
def respondVersionRule (_ : Seen) (c : Control) : Act := setCtl (answer replyVersion c)

/-- `v`: report version (rule R130). -/
def execVersion (s : State) : Host.Outcome State Fault Refusal :=
  runCycle (encode .version)
    (commandRule .respondVersion (fun _ c => { c with disp := .respondVersion }) respondVersionRule) s

/-- TIMER_REPORT (rule R131): one byte of the snapshot per accepted send, least-significant byte first; no ack. -/
def timerReportRule (v : Seen) (c : Control) : Act :=
  if v.txWritable then
    txPut (byteAt c.snap c.idx.toNat)
      (if c.idx = 3 then { c with disp := .idle } else { c with idx := c.idx + 1 })
  else setCtl c

/-- `t`: report the busy-timer count (rule R131). DISPATCH latches the count (rule R112). -/
def execTimerReport (s : State) : Host.Outcome State Fault Refusal :=
  runCycle (encode .timerReport)
    (commandRule .timerReport (fun v c => { c with snap := v.prim.count, idx := 0, disp := .timerReport })
      timerReportRule) s

/-- TIMER_STATUS (rule R132): the running flag of this cycle. -/
def timerStatusRule (v : Seen) (c : Control) : Act :=
  setCtl (answer (if v.prim.running then replyRunning else replyStopped) c)

/-- `T`: report the busy-timer running status (rule R132). -/
def execTimerStatus (s : State) : Host.Outcome State Fault Refusal :=
  runCycle (encode .timerStatus)
    (commandRule .timerStatus (fun _ c => { c with disp := .timerStatus }) timerStatusRule) s

end Sys2Proof.Machine
end

