-- ==== Sys2Proof/Machine/Target.lean ====
section
/-! DEFINITION. Target control and configuration: `r`, `s` and `S` (45_cmd_target_config.md). -/

namespace Sys2Proof.Machine

/-- RESET_TARGET (rule R170). -/
def resetTargetRule (_ : Seen) (c : Control) : Act :=
  if holdDone c.rstCtr then setCtl (answer replyDone { c with trstR := false, sclkR := true })
  else setCtl { c with rstCtr := holdNext c.rstCtr }

/-- `r`: reset the target (rule R170). DISPATCH asserts the reset and loads the hold counter (rule R112). -/
def execResetTarget (s : State) : Host.Outcome State Fault Refusal :=
  runCycle (encode .resetTarget)
    (commandRule .resetTarget
      (fun v c => { c with trstR := true, rstCtr := holdOf v.params (v.params.resetHoldCycles - 1), disp := .resetTarget })
      resetTargetRule) s

/-- SET_TCLK (rule R171). -/
def setTclkRule (v : Seen) (c : Control) : Act :=
  awaitByte (fun b => answer replyDone { c with tclkDiv := b }) v c

/-- `s a0`: set the target-clock divider (rule R171). -/
def execSetTclk (a0 : Byte) (s : State) : Host.Outcome State Fault Refusal :=
  runCycle (encode (.setTclk a0)) (commandRule .setTclk (fun _ c => { c with disp := .setTclk }) setTclkRule) s

/-- SET_SCLK (rule R172): the low byte is kept, and the divider is written once, with the high byte. -/
def setSclkRule (v : Seen) (c : Control) : Act :=
  awaitByte
    (fun b =>
      if c.idx = 0 then { c with arg := setArgByte c.arg 0 b, idx := 1 }
      else answer replyDone { c with sclkDiv := dividerOf b c.arg })
    v c

/-- `S div`: set the serial bit-period divider (rule R172). -/
def execSetSclk (div : Word16) (s : State) : Host.Outcome State Fault Refusal :=
  runCycle (encode (.setSclk div))
    (commandRule .setSclk (fun _ c => { c with idx := 0, disp := .setSclk }) setSclkRule) s

end Sys2Proof.Machine
end

