-- ==== Sys2Proof/Machine/Transaction.lean ====
section
/-! DEFINITION. The transaction command `W` and the serial engine (44_cmd_transaction.md). -/

namespace Sys2Proof.Machine

/-- START (rule R151). -/
def startRule (c : Control) : Control := { c with bit := 0, eng := .prepare }

/-- PREPARE (rule R152): take the next byte to send, or end the transaction. -/
def prepareRule (c : Control) : Control :=
  if fifoEmpty c.fifoOut then { answer replyDone c with eng := .eIdle }
  else { c with tx := head c.fifoOut, fifoOut := pop c.fifoOut, eng := .waitNotBusy }

/-- Start bit `i` of the byte being sent: clock low, data line at `tx[i]` (rules R153, R155). -/
def startBit (i : BitVec 3) (c : Control) : Control :=
  { c with bit := i, sclkR := false, txdR := c.tx.getLsbD i.toNat, eng := .clockLow }

/-- WAIT_NOT_BUSY (rule R153). -/
def waitNotBusyRule (v : Seen) (c : Control) : Control :=
  if !v.prim.busyR && sclkTick v.prim c then startBit 0 c else c

/-- CLOCK_LOW (rule R154). -/
def clockLowRule (v : Seen) (c : Control) : Control :=
  if sclkTick v.prim c then { c with sclkR := true, eng := .clockHigh } else c

/-- CLOCK_HIGH (rule R155): sample at the end of the high phase, then the next bit or the end of the byte. -/
def clockHighRule (v : Seen) (c : Control) : Control :=
  if sclkTick v.prim c then
    if c.bit = 7 then { c with sr := shiftIn v.prim.rxdR c.sr, eng := .writeback }
    else startBit (c.bit + 1) { c with sr := shiftIn v.prim.rxdR c.sr }
  else c

/-- WRITEBACK (rule R156): push the captured byte, waiting for room. -/
def writebackRule (v : Seen) (c : Control) : Control :=
  if fifoFull v.params.inDepth c.fifoIn then c else { c with fifoIn := push c.fifoIn c.sr, eng := .prepare }

/-- SEND_TRANSACTION (rules R110, R150): the engine rule for the current sub-state. No rule acts for `E_IDLE`, and a
register no rule assigns keeps its value (rule R12). -/
def engineRule (v : Seen) (c : Control) : Act :=
  match c.eng with
  | .eIdle => setCtl c
  | .start => setCtl (startRule c)
  | .prepare => setCtl (prepareRule c)
  | .waitNotBusy => setCtl (waitNotBusyRule v c)
  | .clockLow => setCtl (clockLowRule v c)
  | .clockHigh => setCtl (clockHighRule v c)
  | .writeback => setCtl (writebackRule v c)

/-- `W`: run the transaction engine until the outbound FIFO is drained (rule R150). -/
def execTransact (s : State) : Host.Outcome State Fault Refusal :=
  runCycle (encode .transact)
    (commandRule .sendTransaction (fun _ c => { c with eng := .start, disp := .sendTransaction }) engineRule) s

end Sys2Proof.Machine
end

