-- ==== Sys2Proof/Machine/Unknown.lean ====
section
/-! DEFINITION. The unknown command (41_dispatcher.md, rule R118). -/

namespace Sys2Proof.Machine

/-- An unknown command (rule R118): DISPATCH's `otherwise` arm stores `'?'` and goes to RESPOND (rule R112). It has no
branch state. -/
def execUnknown (b : Byte) (s : State) : Host.Outcome State Fault Refusal :=
  runCycle (encode (.unknown b)) (commandRule .respond (fun _ c => answer replyUnknown c) (fun _ c => setCtl c)) s

end Sys2Proof.Machine
end

