-- ==== Sys2Proof/Machine/Dispatch.lean ====
section
/-! DEFINITION. The meaning of every command: one clock cycle in which that command is in hand (rules R20, R110). -/

namespace Sys2Proof.Machine

-- One arm per row of spec/opcode_table.json, in the order of Syntax.lean.
def exec (i : Instr) (s : State) : Host.Outcome State Fault Refusal :=
  match i with
  | .version => Sys2Proof.Machine.execVersion s
  | .flush => Sys2Proof.Machine.execFlush s
  | .resetTarget => Sys2Proof.Machine.execResetTarget s
  | .stage a0 => Sys2Proof.Machine.execStage a0 s
  | .transact => Sys2Proof.Machine.execTransact s
  | .readback n => Sys2Proof.Machine.execReadback n s
  | .timerReport => Sys2Proof.Machine.execTimerReport s
  | .timerStatus => Sys2Proof.Machine.execTimerStatus s
  | .setTclk a0 => Sys2Proof.Machine.execSetTclk a0 s
  | .setSclk div => Sys2Proof.Machine.execSetSclk div s
  | .unknown b => Sys2Proof.Machine.execUnknown b s

end Sys2Proof.Machine
end

