-- ==== Sys2Proof/Machine/Step.lean ====
section
/-! DEFINITION. One step is one clock cycle (rules R8, R20): the cycle of the command in hand, or an IDLE cycle in
which there is none. -/

namespace Sys2Proof.Machine

/-- One clock cycle. -/
def step (s : State) : Host.Outcome State Fault Refusal :=
  match inHand s with
  | some i => exec i s
  | none => idleCycle s

/-- The bytes of the command a table word gives: as many as its command byte asks for (rule R78). -/
def commandBytes (nbits w : Nat) : List Byte :=
  (tableBytes nbits w).take (1 + argCount ((tableBytes nbits w).headD 0))

/-- `s` with that command at the front of the receive channel and the dispatcher where it takes one: in IDLE, outside
reset. The very next step takes its command byte; notes/assumptions/5 says how a program comes to run. -/
def State.withFetchWord (s : State) (nbits w : Nat) : State :=
  { s with
    rxChan := commandBytes nbits w ++ s.rxChan
    ctl := { s.ctl with disp := .idle, eng := .eIdle }
    now := { s.now with rst := false } }

end Sys2Proof.Machine
end

