-- ==== Sys2Proof/WellFormed.lean ====
section
/-! DEFINITION. Which terms of `Instr` are commands of the bridge core. Every argument byte may have any of the 256
values (rule R74), so the one check is that an unknown command's byte is no opcode (rule R75). -/

namespace Sys2Proof

/-- The check of rule R75: the byte of an unknown command is not in the opcode map of rule R72. -/
def Instr.wellFormed : Instr → Bool
  | .version => true
  | .flush => true
  | .resetTarget => true
  | .stage _ => true
  | .transact => true
  | .readback _ => true
  | .timerReport => true
  | .timerStatus => true
  | .setTclk _ => true
  | .setSclk _ => true
  | .unknown b => !opcodes.contains b

end Sys2Proof
end

