-- ==== Sys2Proof/Safety.lean ====
section
/-! DEFINITION. What counts as a safe run, and the terms claims are stated in: the inputs of the coming cycles, the
state after some cycles, what a cycle does outside the dispatcher, and the invariant of the block. Nothing here is
read by the machine. -/

namespace Sys2Proof.Safety

open Sys2Proof.Machine

/-! ### Runs -/

/-- The inputs of the cycle `j` cycles after `s`; `j = 0` is the cycle of `s` itself. -/
def inputAt (s : State) (j : Nat) : Inputs := (s.now :: s.later).getD j (Config.freeInputs (s.cycle + j))

/-- No cycle among the next `k` is a reset cycle. -/
def NoReset (k : Nat) (s : State) : Prop := ∀ j < k, (inputAt s j).rst = false

/-- The transmit core accepts a byte in each of the next `k` cycles. -/
def TxReady (k : Nat) (s : State) : Prop := ∀ j < k, (inputAt s j).txWritable = true

/-- The host bytes that reach the receive channel in the next `k` cycles, in order. -/
def arrivals (s : State) (k : Nat) : List Byte := (List.range k).flatMap fun j => (inputAt s j).hostBytes

/-- After `k` clock cycles from `s` the machine is in a state that meets `P`: none of the cycles has stopped it. -/
def After (k : Nat) (s : State) (P : State → Prop) : Prop :=
  ∃ t, Host.Core.run Sys2Proof.core k s = .next t ∧ P t

/-- After exactly `k` cycles from an IDLE cycle the dispatcher is back in IDLE with the registers `c`, has sent `bytes`
and nothing else, and has consumed nothing beyond what stands before `rest` (rules R65, R66, R196). -/
def CompletesIn (k : Nat) (s : State) (c : Control) (bytes rest : List Byte) : Prop :=
  c.disp = .idle ∧
  After k s fun t =>
    t.ctl = c ∧ t.sent = s.sent ++ bytes ∧ t.rxChan = rest ++ arrivals s k ∧ t.params = s.params

/-! ### What a cycle outside reset leaves, beside what the dispatcher writes -/

/-- `t` is what the parts that run in every cycle make of `s` (rule R21), and the inputs have moved on. -/
def RestOfCycle (s t : State) : Prop :=
  t.params = s.params ∧ t.prim = primNext s.now s.ctl s.prim ∧ t.now = nextInputs s ∧ t.later = s.later.tail ∧
    t.cycle = s.cycle + 1

/-- No byte crosses to or from the host in the cycle from `s` to `t`. -/
def NoTransfer (s t : State) : Prop :=
  t.out = { rxAck := false, txWe := false, txData := 0x00 } ∧ t.rxChan = s.rxChan ++ s.now.hostBytes ∧
    t.sent = s.sent

/-- Exactly the presented host byte is consumed, and nothing is sent. -/
def Takes (s t : State) : Prop :=
  t.out = { rxAck := true, txWe := false, txData := 0x00 } ∧ t.rxChan = s.rxChan.tail ++ s.now.hostBytes ∧
    t.sent = s.sent

/-- Exactly the byte `b` is handed to the transmit core, and nothing is consumed. -/
def Sends (b : Byte) (s t : State) : Prop :=
  t.out = { rxAck := false, txWe := true, txData := b } ∧ t.rxChan = s.rxChan ++ s.now.hostBytes ∧
    t.sent = s.sent ++ [b]

/-- The outcome `o` of a cycle from `s` is the next state in which the dispatcher has left the registers `c` and no
byte has crossed to or from the host. -/
def Moves (s : State) (c : Control) (o : Host.Outcome State Fault Refusal) : Prop :=
  ∃ t, o = .next t ∧ t.ctl = c ∧ NoTransfer s t ∧ RestOfCycle s t

/-- The same, with the presented host byte consumed. -/
def MovesTaking (s : State) (c : Control) (o : Host.Outcome State Fault Refusal) : Prop :=
  ∃ t, o = .next t ∧ t.ctl = c ∧ Takes s t ∧ RestOfCycle s t

/-- The same, with the byte `b` sent. -/
def MovesSending (b : Byte) (s : State) (c : Control) (o : Host.Outcome State Fault Refusal) : Prop :=
  ∃ t, o = .next t ∧ t.ctl = c ∧ Sends b s t ∧ RestOfCycle s t

/-! ### The command in hand -/

/-- The bytes of the command in hand that the dispatcher has taken and can still tell (rules R27, R29, R142, R172). -/
def takenBytes (c : Control) : List Byte :=
  match c.disp with
  | .idle => []
  | .dispatch => [c.cmd]
  | .respondVersion => [opVersion]
  | .flush => [opFlush]
  | .resetTarget => [opResetTarget]
  | .fifoWrite => [opStage]
  | .sendTransaction => [opTransact]
  | .fifoReadback => opReadback :: (List.range c.idx.toNat).map fun k => byteAt c.arg k
  | .timerReport => [opTimerReport]
  | .timerStatus => [opTimerStatus]
  | .setTclk => [opSetTclk]
  | .setSclk => if c.idx = 0 then [opSetSclk] else [opSetSclk, byteAt c.arg 0]
  | .respond => [c.cmd]

/-! ### The invariant -/

/-- Which command each dispatcher state belongs to, as `cmd` still tells it (rules R27, R112, R119). -/
def cmdMatches (c : Control) : Bool :=
  match c.disp with
  | .idle => true
  | .dispatch => true
  | .respondVersion => c.cmd == opVersion
  | .flush => c.cmd == opFlush
  | .resetTarget => c.cmd == opResetTarget
  | .fifoWrite => c.cmd == opStage
  | .sendTransaction => c.cmd == opTransact
  | .fifoReadback => c.cmd == opReadback
  | .timerReport => c.cmd == opTimerReport
  | .timerStatus => c.cmd == opTimerStatus
  | .setTclk => c.cmd == opSetTclk
  | .setSclk => c.cmd == opSetSclk
  | .respond => c.cmd != opTimerReport && c.cmd != opReadback

/-- The reply bytes RESPOND may hold (rule R76). -/
def replies : List Byte := [replyVersion, replyDone, replyFull, replyUnknown, replyRunning, replyStopped]

/-- What always holds of the dispatcher's and the engine's registers: the FIFOs stay within their capacities (rule
R59), the hold counter keeps its width and stays in its range (rule R33), the engine runs exactly in SEND_TRANSACTION (rule R34), the
serial clock is low exactly in CLOCK_LOW (rule R43), the data line carries the bit on the line in both phases (rules
R154, R158), the target is held in reset exactly in RESET_TARGET (rule R170), and the command, the argument index and
the reply byte fit the dispatcher state. -/
def ControlInv (p : Params) (c : Control) : Prop :=
  c.fifoOut.length ≤ p.outDepth ∧ c.fifoIn.length ≤ p.inDepth ∧ c.rstCtr.width = holdWidth p ∧
    holdNat c.rstCtr < p.resetHoldCycles ∧
    (c.eng = .eIdle ↔ c.disp ≠ .sendTransaction) ∧ (c.sclkR = false ↔ c.eng = .clockLow) ∧
    (c.eng = .clockLow ∨ c.eng = .clockHigh → c.txdR = c.tx.getLsbD c.bit.toNat) ∧
    (c.trstR = true ↔ c.disp = .resetTarget) ∧ cmdMatches c = true ∧
    (c.disp = .setSclk → c.idx = 0 ∨ c.idx = 1) ∧ (c.disp = .respond → c.resp ∈ replies)

/-- What always holds of the whole block: the parameters meet rule R9, the control registers their invariant, and
`running == busy_p` (rule R97). -/
def BlockInv (s : State) : Prop :=
  s.params.wf = true ∧ ControlInv s.params s.ctl ∧ s.prim.running = s.prim.busyP

end Sys2Proof.Safety
end

