-- ==== Sys2Proof/Certificates/Slice0/Obligations.lean ====
section
/-! DEFINITION. The statements for the provers. Each docstring names the rule of spec/ it formalises. Statements about
`exec` are about one clock cycle in which a command is in hand; statements about runs go through `step`. The decision
that one `exec` is one clock cycle is the model's (notes/assumptions/6), read from rules R8 and R20. -/

open Sys2Proof Sys2Proof.Machine Sys2Proof.Safety

/-! ### Encoding -/

/-- Rule R72: the opcode map, compared with all eight bits; every other byte is an unknown command of one byte (rule
R75). -/
def Obligations.OpcodeMapIsDecodedByAllEightBits : Prop :=
  ∀ rest : List Byte,
    decode (0x76 :: rest) = .ok (.version, rest) ∧ decode (0x66 :: rest) = .ok (.flush, rest) ∧
    decode (0x72 :: rest) = .ok (.resetTarget, rest) ∧ decode (0x57 :: rest) = .ok (.transact, rest) ∧
    decode (0x74 :: rest) = .ok (.timerReport, rest) ∧ decode (0x54 :: rest) = .ok (.timerStatus, rest) ∧
    (∀ a0, decode (0x77 :: a0 :: rest) = .ok (.stage a0, rest)) ∧
    (∀ a0, decode (0x73 :: a0 :: rest) = .ok (.setTclk a0, rest)) ∧
    (∀ lo hi, ∃ div, decode (0x53 :: lo :: hi :: rest) = .ok (.setSclk div, rest)) ∧
    (∀ c0 c1 c2 c3, ∃ n, decode (0x52 :: c0 :: c1 :: c2 :: c3 :: rest) = .ok (.readback n, rest)) ∧
    ∀ b : Byte, b ∉ ([0x76, 0x66, 0x72, 0x77, 0x57, 0x52, 0x74, 0x54, 0x73, 0x53] : List Byte) →
      decode (b :: rest) = .ok (.unknown b, rest)

/-- Rules R60 and R73: the arguments are unsigned and little-endian. -/
def Obligations.ArgumentsAreUnsignedLittleEndian : Prop :=
  (∀ (a0 : Byte) rest, decode (0x77 :: a0 :: rest) = .ok (.stage a0, rest)) ∧
  (∀ (a0 : Byte) rest, decode (0x73 :: a0 :: rest) = .ok (.setTclk a0, rest)) ∧
  (∀ (lo hi : Byte) rest, ∃ div : Word16, decode (0x53 :: lo :: hi :: rest) = .ok (.setSclk div, rest) ∧
    div.toNat = lo.toNat + 2 ^ 8 * hi.toNat) ∧
  ∀ (c0 c1 c2 c3 : Byte) rest, ∃ n : Word32,
    decode (0x52 :: c0 :: c1 :: c2 :: c3 :: rest) = .ok (.readback n, rest) ∧
    n.toNat = c0.toNat + 2 ^ 8 * c1.toNat + 2 ^ 16 * c2.toNat + 2 ^ 24 * c3.toNat

/-- Decoding inverts encoding, for every well-formed command and whatever follows it (rules R70 to R73). -/
def Obligations.DecodeInvertsEncode : Prop :=
  ∀ (i : Instr) (rest : List Byte), i.wellFormed = true → decode (encode i ++ rest) = .ok (i, rest)

/-- Encoding inverts decoding: a decoded command is well formed, and its bytes are the ones it was read from. -/
def Obligations.EncodeInvertsDecode : Prop :=
  ∀ (bytes rest : List Byte) (i : Instr), decode bytes = .ok (i, rest) → i.wellFormed = true ∧ bytes = encode i ++ rest

/-- Rules R78 and R79: the length of a command is fixed by its first byte alone, and decoding fails exactly where
fewer bytes than that are there; no byte value is rejected. -/
def Obligations.LengthIsFixedByTheFirstByte : Prop :=
  ∀ (op : Byte) (args : List Byte),
    let length := if op = 0x52 then 5 else if op = 0x53 then 3 else if op = 0x77 ∨ op = 0x73 then 2 else 1
    (args.length + 1 < length → ∃ e, decode (op :: args) = .error e) ∧
    (length ≤ args.length + 1 → ∃ i, decode (op :: args) = .ok (i, (op :: args).drop length))

/-- A few command words written out bit by bit from rules R71 and R72 (bit 0 of the first byte is the least
significant bit): `v`, `w 0x41`, `S 0x0010`, `R 0x80000001` and the unknown byte `0x56`. -/
def Obligations.SampleWordsDecodeAsTheTableSays : Prop :=
  decodeTableWord 8 0b01110110 = some .version ∧
  decodeTableWord 16 0b0100000101110111 = some (.stage 0x41) ∧
  decodeTableWord 24 0b000000000001000001010011 = some (.setSclk 0x0010) ∧
  decodeTableWord 40 0b1000000000000000000000000000000101010010 = some (.readback 0x80000001) ∧
  decodeTableWord 8 0b01010110 = some (.unknown 0x56)

/-! ### A step runs the command in hand -/

/-- A step is one cycle of the command whose bytes, taken or still in the receive channel, decode (rules R110, R114).
One `exec` is one clock cycle of the command in hand: notes/assumptions/6. -/
def Obligations.StepRunsTheDecodedCommand : Prop :=
  ∀ (s : State) (i : Instr) (rest : List Byte), s.ctl.disp ≠ .respond →
    decode (takenBytes s.ctl ++ s.rxChan) = .ok (i, rest) → step s = exec i s

/-- The same where some bytes have not arrived, or where the argument has been used up: a step is one cycle of ANY
command that agrees with the bytes in hand as far as they go. A byte that is not presented changes nothing, and in
RESPOND only the command byte tells the command. One `exec` is one clock cycle of the command in hand:
notes/assumptions/6. -/
def Obligations.StepNeedsNoByteThatHasNotArrived : Prop :=
  ∀ (s : State) (i : Instr), i.wellFormed = true →
    (takenBytes s.ctl ++ s.rxChan <+: encode i ∨ encode i <+: takenBytes s.ctl ++ s.rxChan ∨
      (s.ctl.disp = .respond ∧ opcodeOf i = s.ctl.cmd)) → step s = exec i s

/-- The block has no exception and no trap: every cycle ends in a next state, for every command (rule R180). One
`exec` is one clock cycle of the command in hand: notes/assumptions/6. -/
def Obligations.NoCycleStopsTheMachine : Prop :=
  (∀ s : State, ∃ t, step s = .next t) ∧ ∀ (i : Instr) (s : State), ∃ t, exec i s = .next t

/-! ### Reset -/

/-- In a cycle with `rst = 1` every register and FIFO takes its reset value, no other rule acts, and `rx_ack` and `tx_we`
are 0 (rule R25). That the receive channel keeps its bytes and still queues arrivals in that cycle, and the transmit
channel what it has sent, is the model's choice: notes/assumptions/4. That every command's `exec` is that same cycle is
the model's reading of a step: notes/assumptions/6. -/
def Obligations.ResetInputOverridesEveryRule : Prop :=
  ∀ s : State, s.now.rst = true → ∃ t,
    step s = .next t ∧ (∀ i, exec i s = .next t) ∧ t.params = s.params ∧
    t.ctl =
      { disp := .idle, phase := .arg, cmd := 0x00, resp := 0x00, arg := 0x000000, idx := 0, remaining := 0, snap := 0,
        rstCtr := ⟨holdWidth s.params, 0⟩, eng := .eIdle, bit := 0, tx := 0, sr := 0,
        tclkDiv := s.params.tclkDivReset, sclkDiv := s.params.sclkDivReset, sclkR := true, txdR := true, trstR := false, fifoOut := [], fifoIn := [] } ∧
    t.prim =
      { tclkCtr := 0, tclkR := false, sclkCtr := 0, busyR := false, busyP := false, rxdR := false, count := 0,
        running := false } ∧
    NoTransfer s t

/-- The reset state holds the values rule R201 gathers, in the first cycle with `rst = 0` (rule R200). -/
def Obligations.ResetStateHoldsTheListedValues : Prop :=
  State.reset.ctl =
      { disp := .idle, phase := .arg, cmd := 0x00, resp := 0x00, arg := 0x000000, idx := 0, remaining := 0, snap := 0,
        rstCtr := ⟨holdWidth State.reset.params, 0⟩, eng := .eIdle, bit := 0, tx := 0, sr := 0,
        tclkDiv := State.reset.params.tclkDivReset, sclkDiv := State.reset.params.sclkDivReset, sclkR := true, txdR := true, trstR := false, fifoOut := [],
        fifoIn := [] } ∧
    State.reset.prim =
      { tclkCtr := 0, tclkR := false, sclkCtr := 0, busyR := false, busyP := false, rxdR := false, count := 0,
        running := false } ∧
    State.reset.now.rst = false

/-! ### The parts that run in every cycle -/

/-- Rules R90 and R91: the input registers and the edge detector's history follow the lines in every cycle outside
reset, and the raw lines reach nothing else: changing them in a cycle changes only the two input registers. -/
def Obligations.InputRegistersAloneReadTheLines : Prop :=
  ∀ s : State, s.now.rst = false → ∃ t,
    step s = .next t ∧ t.prim.busyR = s.now.busyIn ∧ t.prim.rxdR = s.now.rxdIn ∧ t.prim.busyP = s.prim.busyR ∧
    ∀ busy rxd : Bool,
      step { s with now := { s.now with busyIn := busy, rxdIn := rxd } } =
        .next { t with prim := { t.prim with busyR := busy, rxdR := rxd } }

/-- Rule R94: the busy-timer's update in every cycle outside reset, in its priority order. -/
def Obligations.BusyTimerArmsFreezesAndAdvances : Prop :=
  ∀ s : State, s.now.rst = false → ∃ t, step s = .next t ∧
    if s.prim.busyR = true ∧ s.prim.busyP = false ∧ s.prim.running = false then
      t.prim.count = 0 ∧ t.prim.running = true
    else if s.prim.busyP = true ∧ s.prim.busyR = false then
      t.prim.count = s.prim.count ∧ t.prim.running = false
    else if s.prim.running = true then
      t.prim.count.toNat = (s.prim.count.toNat + 1) % 2 ^ 32 ∧ t.prim.running = true
    else t.prim.count = s.prim.count ∧ t.prim.running = s.prim.running

/-- Rule R101, and the serial divider and the target main clock with it (rules R102, R105): the dividers' counters
restart on a tick and count up otherwise, in every cycle outside reset. -/
def Obligations.DividersTickAtTheirValue : Prop :=
  ∀ s : State, s.now.rst = false → ∃ t, step s = .next t ∧
    (if s.ctl.tclkDiv.toNat ≤ s.prim.tclkCtr.toNat then t.prim.tclkCtr = 0 ∧ t.prim.tclkR = !s.prim.tclkR
      else t.prim.tclkCtr.toNat = s.prim.tclkCtr.toNat + 1 ∧ t.prim.tclkR = s.prim.tclkR) ∧
    (if s.ctl.sclkDiv.toNat ≤ s.prim.sclkCtr.toNat then t.prim.sclkCtr = 0
      else t.prim.sclkCtr.toNat = s.prim.sclkCtr.toNat + 1)

/-- The primitives run alike in every dispatcher and engine state: what they do in a cycle outside reset depends on
their own registers, the two divider values and the target's two lines, and on nothing else, neither the host's bytes nor
the transmit core (rules R21, R94, R99). -/
def Obligations.PrimitivesIgnoreTheDispatcher : Prop :=
  ∀ s u s' u' : State, s.now.rst = false → u.now.rst = false → u.now.busyIn = s.now.busyIn →
    u.now.rxdIn = s.now.rxdIn → u.prim = s.prim → u.ctl.tclkDiv = s.ctl.tclkDiv → u.ctl.sclkDiv = s.ctl.sclkDiv → step s = .next s' → step u = .next u' → u'.prim = s'.prim

/-- The target main clock toggles once every `tclk_div + 1` cycles while the divider keeps its value (rules R100,
R102). -/
def Obligations.TargetClockTogglesOncePerPeriod : Prop :=
  ∀ s : State, s.prim.tclkCtr = 0 → NoReset (s.ctl.tclkDiv.toNat + 1) s →
    (∀ j ≤ s.ctl.tclkDiv.toNat, After j s fun u => u.ctl.tclkDiv = s.ctl.tclkDiv) →
    (∀ j ≤ s.ctl.tclkDiv.toNat, After j s fun u => u.prim.tclkR = s.prim.tclkR) ∧
    After (s.ctl.tclkDiv.toNat + 1) s fun t => t.prim.tclkR = !s.prim.tclkR ∧ t.prim.tclkCtr = 0

/-- A busy pulse seen for exactly `L` cycles leaves `count = L - 1` and the timer stopped (rules R95, R96). -/
def Obligations.PulseOfLCyclesCountsLessOne : Prop :=
  ∀ (s : State) (L : Nat), 1 ≤ L → s.prim.busyR = true → s.prim.busyP = false → s.prim.running = false →
    NoReset (L + 1) s → (∀ j, j + 1 < L → (inputAt s j).busyIn = true) → (inputAt s (L - 1)).busyIn = false →
    After (L + 1) s fun t => t.prim.count.toNat = (L - 1) % 2 ^ 32 ∧ t.prim.running = false

/-! ### The dispatcher, state by state -/

/-- Rule R111: IDLE takes one command byte when one is presented, and holds otherwise. -/
def Obligations.IdleTakesOneCommandByte : Prop :=
  ∀ s : State, s.now.rst = false → s.ctl.disp = .idle →
    (∀ b rest, s.rxChan = b :: rest → MovesTaking s { s.ctl with cmd := b, disp := .dispatch } (step s)) ∧
    (s.rxChan = [] → Moves s s.ctl (step s))

/-- Rule R112: DISPATCH selects the next state from the command byte and makes its entry assignments; it consumes no
byte and sends none. -/
def Obligations.DispatchSelectsTheBranch : Prop :=
  ∀ s : State, s.now.rst = false → s.ctl.disp = .dispatch →
    Moves s
      (if s.ctl.cmd = 0x76 then { s.ctl with disp := .respondVersion }
      else if s.ctl.cmd = 0x66 then { s.ctl with disp := .flush }
      else if s.ctl.cmd = 0x72 then
        { s.ctl with
          trstR := true, rstCtr := ⟨holdWidth s.params, BitVec.ofNat _ (s.params.resetHoldCycles - 1)⟩,
          disp := .resetTarget }
      else if s.ctl.cmd = 0x77 then { s.ctl with disp := .fifoWrite }
      else if s.ctl.cmd = 0x57 then { s.ctl with eng := .start, disp := .sendTransaction }
      else if s.ctl.cmd = 0x52 then { s.ctl with idx := 0, phase := .arg, disp := .fifoReadback }
      else if s.ctl.cmd = 0x74 then { s.ctl with snap := s.prim.count, idx := 0, disp := .timerReport }
      else if s.ctl.cmd = 0x54 then { s.ctl with disp := .timerStatus }
      else if s.ctl.cmd = 0x73 then { s.ctl with disp := .setTclk }
      else if s.ctl.cmd = 0x53 then { s.ctl with idx := 0, disp := .setSclk }
      else { s.ctl with resp := 0x3F, disp := .respond })
      (step s)

/-- Rule R113: RESPOND sends `resp` when the transmit core can accept it, and holds otherwise. Every command but `t` and
`R` comes to it: the other branch states lead to themselves or to RESPOND, and an unknown byte leads there from
DISPATCH; the branch states of `t` and `R` lead to themselves or to IDLE. -/
def Obligations.RespondSendsTheReply : Prop :=
  ∀ s : State, s.now.rst = false →
    (s.ctl.disp = .respond → s.now.txWritable = true →
      MovesSending s.ctl.resp s { s.ctl with disp := .idle } (step s)) ∧
    (s.ctl.disp = .respond → s.now.txWritable = false → Moves s s.ctl (step s)) ∧
    (s.ctl.disp = .timerReport ∨ s.ctl.disp = .fifoReadback → ∃ t, step s = .next t ∧
      (t.ctl.disp = s.ctl.disp ∨ t.ctl.disp = .idle)) ∧
    (s.ctl.disp ∈ [Disp.respondVersion, .flush, .resetTarget, .fifoWrite, .sendTransaction, .timerStatus, .setTclk,
      .setSclk] ∨ (s.ctl.disp = .dispatch ∧ s.ctl.cmd ∉ opcodes) → ∃ t, step s = .next t ∧
      (t.ctl.disp = s.ctl.disp ∧ s.ctl.disp ≠ .dispatch ∨ t.ctl.disp = .respond))

/-- The paths of the commands (rules R110, R117, R119): outside reset a step leaves the dispatcher in its state, or moves
it from IDLE to DISPATCH, from DISPATCH to the branch state of the command byte, from a branch state to RESPOND (for
`t` and `R` to IDLE), or from RESPOND to IDLE; nothing else cuts a command short. -/
def Obligations.EveryCommandFollowsItsPath : Prop :=
  ∀ s t : State, s.now.rst = false → step s = .next t → t.ctl.disp ≠ s.ctl.disp →
    (s.ctl.disp = .idle ∧ t.ctl.disp = .dispatch) ∨
    (s.ctl.disp = .dispatch ∧ t.ctl.disp ≠ .idle ∧ (t.ctl.disp = .respond ↔ s.ctl.cmd ∉ opcodes) ∧
      (t.ctl.disp ≠ .respond → takenBytes t.ctl = [s.ctl.cmd])) ∨
    (s.ctl.disp ∈ [Disp.respondVersion, .flush, .resetTarget, .fifoWrite, .sendTransaction, .timerStatus, .setTclk,
      .setSclk] ∧ t.ctl.disp = .respond) ∨
    (s.ctl.disp ∈ [Disp.timerReport, .fifoReadback, .respond] ∧ t.ctl.disp = .idle)

/-- Rule R114: the four argument waits hold while no byte is presented; otherwise they take exactly the presented
byte, whatever its value, and act on it in the same cycle. -/
def Obligations.ArgumentWaitsTakeThePresentedByte : Prop :=
  ∀ s : State, s.now.rst = false →
    ((s.ctl.disp = .fifoWrite ∨ s.ctl.disp = .setTclk ∨ s.ctl.disp = .setSclk ∨
        (s.ctl.disp = .fifoReadback ∧ s.ctl.phase = .arg)) → s.rxChan = [] → Moves s s.ctl (step s)) ∧
    ∀ b rest, s.rxChan = b :: rest →
      (s.ctl.disp = .fifoWrite →
        MovesTaking s
          (if s.ctl.fifoOut.length = s.params.outDepth then { s.ctl with resp := 0x21, disp := .respond }
            else { s.ctl with fifoOut := s.ctl.fifoOut ++ [b], resp := 0x2E, disp := .respond })
          (step s)) ∧
      (s.ctl.disp = .setTclk →
        MovesTaking s { s.ctl with tclkDiv := b, resp := 0x2E, disp := .respond } (step s)) ∧
      (s.ctl.disp = .setSclk →
        MovesTaking s
          (if s.ctl.idx = 0 then { s.ctl with arg := s.ctl.arg.extractLsb' 8 16 ++ b, idx := 1 }
            else { s.ctl with sclkDiv := b ++ s.ctl.arg.extractLsb' 0 8, resp := 0x2E, disp := .respond })
          (step s)) ∧
      (s.ctl.disp = .fifoReadback → s.ctl.phase = .arg →
        MovesTaking s
          (if s.ctl.idx = 0 then { s.ctl with arg := s.ctl.arg.extractLsb' 8 16 ++ b, idx := 1 }
            else if s.ctl.idx = 1 then
              { s.ctl with arg := s.ctl.arg.extractLsb' 16 8 ++ (b ++ s.ctl.arg.extractLsb' 0 8), idx := 2 }
            else if s.ctl.idx = 2 then { s.ctl with arg := b ++ s.ctl.arg.extractLsb' 0 16, idx := 3 }
            else { s.ctl with remaining := b ++ s.ctl.arg, phase := .stream })
          (step s))

/-- A send wait holds while the transmit core accepts nothing; in the cycle it accepts, exactly one byte is sent, and
the pops and counter updates that go with it happen then (rules R115, R131, R142). -/
def Obligations.SendWaitsSendExactlyOneByte : Prop :=
  ∀ s : State, s.now.rst = false →
    ((s.ctl.disp = .timerReport ∨
        (s.ctl.disp = .fifoReadback ∧ s.ctl.phase = .stream ∧ s.ctl.remaining ≠ 0)) →
      s.now.txWritable = false → Moves s s.ctl (step s)) ∧
    (s.now.txWritable = true → s.ctl.disp = .timerReport →
      MovesSending (s.ctl.snap.extractLsb' (8 * s.ctl.idx.toNat) 8) s
        (if s.ctl.idx = 3 then { s.ctl with disp := .idle } else { s.ctl with idx := s.ctl.idx + 1 }) (step s)) ∧
    (s.now.txWritable = true → s.ctl.disp = .fifoReadback → s.ctl.phase = .stream → s.ctl.remaining ≠ 0 →
      (∀ b rest, s.ctl.fifoIn = b :: rest →
        MovesSending b s { s.ctl with fifoIn := rest, remaining := s.ctl.remaining - 1 } (step s)) ∧
      (s.ctl.fifoIn = [] →
        MovesSending 0xFF s { s.ctl with remaining := s.ctl.remaining - 1 } (step s)))

/-- Rules R23 and R24: what each transfer does to its channel, when it may happen, and that `tx_data` is `0x00` where
nothing is sent; no cycle both consumes and sends (rule R185). -/
def Obligations.ChannelsAreInOrderAndLossless : Prop :=
  ∀ s t : State, step s = .next t →
    (t.out.rxAck = true → s.rxChan ≠ []) ∧ (t.out.txWe = true → s.now.txWritable = true) ∧
    ¬(t.out.rxAck = true ∧ t.out.txWe = true) ∧ (t.out.txWe = false → t.out.txData = 0x00) ∧
    (if t.out.rxAck = true then ∃ b rest, s.rxChan = b :: rest ∧ t.rxChan = rest ++ s.now.hostBytes
      else t.rxChan = s.rxChan ++ s.now.hostBytes) ∧
    (if t.out.txWe = true then t.sent = s.sent ++ [t.out.txData] else t.sent = s.sent)

/-- No host byte is consumed outside IDLE and the argument waits (rule R116). -/
def Obligations.HostBytesAreTakenOnlyWhereTheyAreAwaited : Prop :=
  ∀ s t : State, step s = .next t → t.out.rxAck = true →
    s.now.rst = false ∧
    (s.ctl.disp = .idle ∨ s.ctl.disp = .fifoWrite ∨ s.ctl.disp = .setTclk ∨ s.ctl.disp = .setSclk ∨
      (s.ctl.disp = .fifoReadback ∧ s.ctl.phase = .arg))

/-! ### One cycle of each command -/

/-- Every command's cycle in IDLE, which takes its command byte, and `exec`'s cycle in RESPOND, which answers; both hold
while their channel is not ready (rules R111, R113). One `exec` is one clock cycle of the command in hand:
notes/assumptions/6. `t` and `R` never enter RESPOND (rules R77, R113): that `exec` of these two makes the cycle of
RESPOND there is the model's choice, notes/assumptions/7. -/
def Obligations.EveryCommandIsTakenAndAnswered : Prop :=
  ∀ (i : Instr) (s : State), s.now.rst = false →
    (s.ctl.disp = .idle → s.rxChan ≠ [] →
      MovesTaking s { s.ctl with cmd := opcodeOf i, disp := .dispatch } (exec i s)) ∧
    (s.ctl.disp = .idle → s.rxChan = [] → Moves s s.ctl (exec i s)) ∧
    (s.ctl.disp = .respond → s.now.txWritable = true →
      MovesSending s.ctl.resp s { s.ctl with disp := .idle } (exec i s)) ∧
    (s.ctl.disp = .respond → s.now.txWritable = false → Moves s s.ctl (exec i s))

/-- One cycle of an unknown command in DISPATCH (rule R118). One `exec` is one clock cycle of the command in hand:
notes/assumptions/6. -/
def Obligations.UnknownCommandAnswersQuestionMark : Prop :=
  ∀ (b : Byte) (s : State), s.now.rst = false → s.ctl.disp = .dispatch →
    Moves s { s.ctl with resp := 0x3F, disp := .respond } (exec (.unknown b) s)

/-- One cycle of `v` in each state of its own (rule R130). One `exec` is one clock cycle of the command in hand:
notes/assumptions/6. -/
def Obligations.VersionAnswersZeroCharacter : Prop :=
  ∀ s : State, s.now.rst = false →
    (s.ctl.disp = .dispatch → Moves s { s.ctl with disp := .respondVersion } (exec .version s)) ∧
    (s.ctl.disp = .respondVersion → Moves s { s.ctl with resp := 0x30, disp := .respond } (exec .version s))

/-- One cycle of `t` in each state of its own (rule R131). One `exec` is one clock cycle of the command in hand:
notes/assumptions/6. -/
def Obligations.TimerReportSendsTheLatchedCount : Prop :=
  ∀ s : State, s.now.rst = false →
    (s.ctl.disp = .dispatch →
      Moves s { s.ctl with snap := s.prim.count, idx := 0, disp := .timerReport } (exec .timerReport s)) ∧
    (s.ctl.disp = .timerReport → s.now.txWritable = true →
      MovesSending (s.ctl.snap.extractLsb' (8 * s.ctl.idx.toNat) 8) s
        (if s.ctl.idx = 3 then { s.ctl with disp := .idle } else { s.ctl with idx := s.ctl.idx + 1 })
        (exec .timerReport s)) ∧
    (s.ctl.disp = .timerReport → s.now.txWritable = false → Moves s s.ctl (exec .timerReport s))

/-- One cycle of `T` in each state of its own (rule R132). One `exec` is one clock cycle of the command in hand:
notes/assumptions/6. -/
def Obligations.TimerStatusReportsTheRunningFlag : Prop :=
  ∀ s : State, s.now.rst = false →
    (s.ctl.disp = .dispatch → Moves s { s.ctl with disp := .timerStatus } (exec .timerStatus s)) ∧
    (s.ctl.disp = .timerStatus →
      Moves s { s.ctl with resp := if s.prim.running = true then 0x72 else 0x73, disp := .respond }
        (exec .timerStatus s))

/-- One cycle of `f` in each state of its own (rule R140). One `exec` is one clock cycle of the command in hand:
notes/assumptions/6. -/
def Obligations.FlushDiscardsOneByteOfEachFifo : Prop :=
  ∀ s : State, s.now.rst = false →
    (s.ctl.disp = .dispatch → Moves s { s.ctl with disp := .flush } (exec .flush s)) ∧
    (s.ctl.disp = .flush → s.ctl.fifoOut = [] → s.ctl.fifoIn = [] →
      Moves s { s.ctl with resp := 0x2E, disp := .respond } (exec .flush s)) ∧
    (s.ctl.disp = .flush → (s.ctl.fifoOut ≠ [] ∨ s.ctl.fifoIn ≠ []) →
      Moves s { s.ctl with fifoOut := s.ctl.fifoOut.drop 1, fifoIn := s.ctl.fifoIn.drop 1 } (exec .flush s))

/-- One cycle of `w a0` in each state of its own (rule R141): stored and acknowledged where there is room, dropped and
reported where there is none. One `exec` is one clock cycle of the command in hand: notes/assumptions/6. -/
def Obligations.StageStoresOrReportsFull : Prop :=
  ∀ (a0 : Byte) (s : State), s.now.rst = false →
    (s.ctl.disp = .dispatch → Moves s { s.ctl with disp := .fifoWrite } (exec (.stage a0) s)) ∧
    (s.ctl.disp = .fifoWrite → s.rxChan ≠ [] → s.ctl.fifoOut.length ≠ s.params.outDepth →
      MovesTaking s { s.ctl with fifoOut := s.ctl.fifoOut ++ [a0], resp := 0x2E, disp := .respond }
        (exec (.stage a0) s)) ∧
    (s.ctl.disp = .fifoWrite → s.rxChan ≠ [] → s.ctl.fifoOut.length = s.params.outDepth →
      MovesTaking s { s.ctl with resp := 0x21, disp := .respond } (exec (.stage a0) s)) ∧
    (s.ctl.disp = .fifoWrite → s.rxChan = [] → Moves s s.ctl (exec (.stage a0) s))

/-- One cycle of `R n` in each state of its own (rule R142). One `exec` is one clock cycle of the command in hand:
notes/assumptions/6. -/
def Obligations.ReadbackCollectsItsCountAndStreams : Prop :=
  ∀ (n : Word32) (s : State), s.now.rst = false →
    (s.ctl.disp = .dispatch →
      Moves s { s.ctl with idx := 0, phase := .arg, disp := .fifoReadback } (exec (.readback n) s)) ∧
    (s.ctl.disp = .fifoReadback → s.ctl.phase = .arg → s.rxChan ≠ [] →
      MovesTaking s
        (if s.ctl.idx = 0 then { s.ctl with arg := s.ctl.arg.extractLsb' 8 16 ++ n.extractLsb' 0 8, idx := 1 }
          else if s.ctl.idx = 1 then
            { s.ctl with
              arg := s.ctl.arg.extractLsb' 16 8 ++ (n.extractLsb' 8 8 ++ s.ctl.arg.extractLsb' 0 8), idx := 2 }
          else if s.ctl.idx = 2 then
            { s.ctl with arg := n.extractLsb' 16 8 ++ s.ctl.arg.extractLsb' 0 16, idx := 3 }
          else { s.ctl with remaining := n.extractLsb' 24 8 ++ s.ctl.arg, phase := .stream })
        (exec (.readback n) s)) ∧
    (s.ctl.disp = .fifoReadback → s.ctl.phase = .arg → s.rxChan = [] → Moves s s.ctl (exec (.readback n) s)) ∧
    (s.ctl.disp = .fifoReadback → s.ctl.phase = .stream → s.ctl.remaining = 0 →
      Moves s { s.ctl with disp := .idle } (exec (.readback n) s)) ∧
    (s.ctl.disp = .fifoReadback → s.ctl.phase = .stream → s.ctl.remaining ≠ 0 → s.now.txWritable = true →
      MovesSending (s.ctl.fifoIn.headD 0xFF) s
        { s.ctl with fifoIn := s.ctl.fifoIn.drop 1, remaining := s.ctl.remaining - 1 } (exec (.readback n) s)) ∧
    (s.ctl.disp = .fifoReadback → s.ctl.phase = .stream → s.ctl.remaining ≠ 0 → s.now.txWritable = false →
      Moves s s.ctl (exec (.readback n) s))

/-- One cycle of `r` in each state of its own (rule R170), and the width of `rst_ctr`: the least number of bits, at least
1, that holds `RESET_HOLD_CYCLES - 1` (rule R33). One `exec` is one clock cycle of the command in hand:
notes/assumptions/6. -/
def Obligations.ResetTargetHoldsThenReleases : Prop :=
  (∀ p : Params, 1 ≤ holdWidth p ∧ p.resetHoldCycles - 1 < 2 ^ holdWidth p ∧
    ∀ w, 1 ≤ w → p.resetHoldCycles - 1 < 2 ^ w → holdWidth p ≤ w) ∧
  ∀ s : State, s.now.rst = false →
    (s.ctl.disp = .dispatch →
      Moves s { s.ctl with
          trstR := true, rstCtr := ⟨holdWidth s.params, BitVec.ofNat _ (s.params.resetHoldCycles - 1)⟩,
          disp := .resetTarget }
        (exec .resetTarget s)) ∧
    (s.ctl.disp = .resetTarget → s.ctl.rstCtr.value = 0 →
      Moves s { s.ctl with trstR := false, sclkR := true, resp := 0x2E, disp := .respond } (exec .resetTarget s)) ∧
    (s.ctl.disp = .resetTarget → s.ctl.rstCtr.value ≠ 0 →
      Moves s { s.ctl with rstCtr := ⟨s.ctl.rstCtr.width, s.ctl.rstCtr.value - 1⟩ } (exec .resetTarget s))

/-- One cycle of `s a0` in each state of its own (rule R171). One `exec` is one clock cycle of the command in hand:
notes/assumptions/6. -/
def Obligations.SetTclkStoresTheDivider : Prop :=
  ∀ (a0 : Byte) (s : State), s.now.rst = false →
    (s.ctl.disp = .dispatch → Moves s { s.ctl with disp := .setTclk } (exec (.setTclk a0) s)) ∧
    (s.ctl.disp = .setTclk → s.rxChan ≠ [] →
      MovesTaking s { s.ctl with tclkDiv := a0, resp := 0x2E, disp := .respond } (exec (.setTclk a0) s)) ∧
    (s.ctl.disp = .setTclk → s.rxChan = [] → Moves s s.ctl (exec (.setTclk a0) s))

/-- One cycle of `S div` in each state of its own (rule R172): the divider is written once, with its high byte. One
`exec` is one clock cycle of the command in hand: notes/assumptions/6. -/
def Obligations.SetSclkStoresTheDividerAtOnce : Prop :=
  ∀ (div : Word16) (s : State), s.now.rst = false →
    (s.ctl.disp = .dispatch → Moves s { s.ctl with idx := 0, disp := .setSclk } (exec (.setSclk div) s)) ∧
    (s.ctl.disp = .setSclk → s.ctl.idx = 0 → s.rxChan ≠ [] →
      MovesTaking s { s.ctl with arg := s.ctl.arg.extractLsb' 8 16 ++ div.extractLsb' 0 8, idx := 1 }
        (exec (.setSclk div) s)) ∧
    (s.ctl.disp = .setSclk → s.ctl.idx ≠ 0 → s.rxChan ≠ [] →
      MovesTaking s
        { s.ctl with
          sclkDiv := div.extractLsb' 8 8 ++ s.ctl.arg.extractLsb' 0 8, resp := 0x2E, disp := .respond }
        (exec (.setSclk div) s)) ∧
    (s.ctl.disp = .setSclk → s.rxChan = [] → Moves s s.ctl (exec (.setSclk div) s))

/-- One cycle of `W` in DISPATCH and in START, PREPARE, WAIT_NOT_BUSY, CLOCK_LOW and WRITEBACK (rules R151 to R154 and
R156), and what the lines carry in CLOCK_LOW in every state that meets the invariant (rule R154). A serial tick is
`sclk_ctr >= sclk_div` (rule R105). One `exec` is one clock cycle of the command in hand: notes/assumptions/6. In
DISPATCH `exec` of `W` makes the entry assignments of `W` whatever `cmd` holds, which is the model's choice:
notes/assumptions/7; a step does so where `cmd` is the byte of `W`. -/
def Obligations.TransactRunsTheEngineRule : Prop :=
  (∀ s : State, s.ctl.disp = .sendTransaction → step s = exec .transact s) ∧
  (∀ s : State, BlockInv s → s.ctl.eng = .clockLow →
    s.ctl.sclkR = false ∧ s.ctl.txdR = s.ctl.tx.getLsbD s.ctl.bit.toNat) ∧
  ∀ s : State, s.now.rst = false →
    (s.ctl.disp = .dispatch →
      Moves s { s.ctl with eng := .start, disp := .sendTransaction } (exec .transact s)) ∧
    (s.ctl.disp = .sendTransaction →
      (s.ctl.eng = .start → Moves s { s.ctl with bit := 0, eng := .prepare } (exec .transact s)) ∧
      (s.ctl.eng = .prepare → s.ctl.fifoOut = [] →
        Moves s { s.ctl with eng := .eIdle, resp := 0x2E, disp := .respond } (exec .transact s)) ∧
      (∀ b rest, s.ctl.eng = .prepare → s.ctl.fifoOut = b :: rest →
        Moves s { s.ctl with tx := b, fifoOut := rest, eng := .waitNotBusy } (exec .transact s)) ∧
      (s.ctl.eng = .waitNotBusy →
        Moves s
          (if s.prim.busyR = false ∧ s.ctl.sclkDiv.toNat ≤ s.prim.sclkCtr.toNat then
            { s.ctl with bit := 0, sclkR := false, txdR := s.ctl.tx.getLsbD 0, eng := .clockLow }
          else s.ctl)
          (exec .transact s)) ∧
      (s.ctl.eng = .clockLow →
        Moves s
          (if s.ctl.sclkDiv.toNat ≤ s.prim.sclkCtr.toNat then { s.ctl with sclkR := true, eng := .clockHigh }
            else s.ctl)
          (exec .transact s)) ∧
      (s.ctl.eng = .writeback →
        Moves s
          (if s.ctl.fifoIn.length = s.params.inDepth then s.ctl
            else { s.ctl with fifoIn := s.ctl.fifoIn ++ [s.ctl.sr], eng := .prepare })
          (exec .transact s)))

/-- One cycle of `W` in CLOCK_HIGH, the serial clock's level there in every state that meets the invariant, and what
eight samples make of the shift register (rule R155). That one `exec` is one clock cycle of the command in hand, and a
step in SEND_TRANSACTION `exec` of `W`, is the model's reading of a step: notes/assumptions/6. -/
def Obligations.ClockHighSamplesLeastSignificantBitFirst : Prop :=
  (∀ s : State, s.ctl.disp = .sendTransaction → step s = exec .transact s) ∧
  (∀ s : State, BlockInv s → s.ctl.eng = .clockHigh → s.ctl.sclkR = true) ∧
  (∀ s : State, s.now.rst = false → s.ctl.disp = .sendTransaction → s.ctl.eng = .clockHigh →
    Moves s
      (if s.ctl.sclkDiv.toNat ≤ s.prim.sclkCtr.toNat then
        if s.ctl.bit = 7 then { s.ctl with sr := shiftIn s.prim.rxdR s.ctl.sr, eng := .writeback }
        else
          { s.ctl with
            sr := shiftIn s.prim.rxdR s.ctl.sr, bit := s.ctl.bit + 1, sclkR := false,
            txdR := s.ctl.tx.getLsbD (s.ctl.bit.toNat + 1), eng := .clockLow }
      else s.ctl)
      (exec .transact s)) ∧
  (∀ (rxd : Bool) (sr : Byte), (shiftIn rxd sr).getLsbD 7 = rxd ∧
    ∀ i < 7, (shiftIn rxd sr).getLsbD i = sr.getLsbD (i + 1)) ∧
  ∀ (sample : Nat → Bool) (sr : Byte),
    ∀ i < 8, ((List.range 8).foldl (fun v k => shiftIn (sample k) v) sr).getLsbD i = sample i

/-! ### Whole commands -/

/-- `v` replies `'0'` in cycle 3 and completes after 4 cycles (rules R130, R212). -/
def Obligations.VersionCompletesInFourCycles : Prop :=
  ∀ (s : State) (rest : List Byte), s.ctl.disp = .idle → s.rxChan = 0x76 :: rest → NoReset 4 s →
    (inputAt s 3).txWritable = true →
    CompletesIn 4 s { s.ctl with cmd := 0x76, resp := 0x30 } [0x30] rest ∧ After 3 s fun u => u.sent = s.sent

/-- An unknown byte replies `'?'` in cycle 2 and completes after 3 cycles, having taken no argument (rules R118,
R212). -/
def Obligations.UnknownCompletesInThreeCycles : Prop :=
  ∀ (s : State) (b : Byte) (rest : List Byte), b ∉ opcodes → s.ctl.disp = .idle → s.rxChan = b :: rest →
    NoReset 3 s → (inputAt s 2).txWritable = true →
    CompletesIn 3 s { s.ctl with cmd := b, resp := 0x3F } [0x3F] rest ∧ After 2 s fun u => u.sent = s.sent

/-- `T` completes after 4 cycles, and its reply is `'r'` exactly when the busy line was high two cycles before its
TIMER_STATUS cycle, which is the cycle that takes the command byte (rules R97, R132, R212). -/
def Obligations.TimerStatusTellsTheBusyLineOfTwoCyclesBefore : Prop :=
  ∀ (s : State) (rest : List Byte), s.ctl.disp = .idle → s.rxChan = 0x54 :: rest →
    s.prim.running = s.prim.busyP → NoReset 4 s → (inputAt s 3).txWritable = true →
    CompletesIn 4 s { s.ctl with cmd := 0x54, resp := if s.now.busyIn = true then 0x72 else 0x73 }
      [if s.now.busyIn = true then 0x72 else 0x73] rest

/-- `t` completes after 6 cycles, having sent the four bytes of the count of its DISPATCH cycle, least significant
first, whatever the timer does meanwhile (rules R61, R131, R212). -/
def Obligations.TimerReportSendsOneConsistentCount : Prop :=
  ∀ (s : State) (rest : List Byte), s.ctl.disp = .idle → s.rxChan = 0x74 :: rest → NoReset 6 s →
    (∀ j, 2 ≤ j → j < 6 → (inputAt s j).txWritable = true) →
    After 1 s fun u =>
      CompletesIn 6 s { s.ctl with cmd := 0x74, snap := u.prim.count, idx := 3 }
        [u.prim.count.extractLsb' 0 8, u.prim.count.extractLsb' 8 8, u.prim.count.extractLsb' 16 8,
          u.prim.count.extractLsb' 24 8] rest

/-- `f` empties both FIFOs, replies `'.'` and completes after `4 + max(Len(OUT), Len(IN))` cycles (rules R67, R140,
R212). -/
def Obligations.FlushEmptiesBothFifos : Prop :=
  ∀ (s : State) (rest : List Byte), s.ctl.disp = .idle → s.rxChan = 0x66 :: rest →
    NoReset (4 + max s.ctl.fifoOut.length s.ctl.fifoIn.length) s →
    (inputAt s (3 + max s.ctl.fifoOut.length s.ctl.fifoIn.length)).txWritable = true →
    CompletesIn (4 + max s.ctl.fifoOut.length s.ctl.fifoIn.length) s
      { s.ctl with cmd := 0x66, resp := 0x2E, fifoOut := [], fifoIn := [] } [0x2E] rest

/-- `w a0` completes after 4 cycles: it appends its byte and replies `'.'`, or finds `OUT` full, drops the byte and
replies `'!'`; an argument that equals an opcode is data (rules R74, R141, R212). -/
def Obligations.StageAppendsOrDropsItsByte : Prop :=
  ∀ (s : State) (a0 : Byte) (rest : List Byte), s.ctl.disp = .idle → s.rxChan = 0x77 :: a0 :: rest → NoReset 4 s →
    (inputAt s 3).txWritable = true →
    if s.ctl.fifoOut.length = s.params.outDepth then
      CompletesIn 4 s { s.ctl with cmd := 0x77, resp := 0x21 } [0x21] rest
    else
      CompletesIn 4 s { s.ctl with cmd := 0x77, resp := 0x2E, fifoOut := s.ctl.fifoOut ++ [a0] } [0x2E] rest

/-- `R n` sends exactly `n` bytes, the stored ones in order and then the filler `0xFF`, leaves the rest of `IN`, sends
no ack, and completes after `7 + n` cycles (rules R57, R142, R212). -/
def Obligations.ReadbackStreamsExactlyItsCount : Prop :=
  ∀ (s : State) (c0 c1 c2 c3 : Byte) (rest : List Byte), s.ctl.disp = .idle →
    s.rxChan = 0x52 :: c0 :: c1 :: c2 :: c3 :: rest →
    let n := c0.toNat + 2 ^ 8 * c1.toNat + 2 ^ 16 * c2.toNat + 2 ^ 24 * c3.toNat
    NoReset (7 + n) s → TxReady (7 + n) s →
    CompletesIn (7 + n) s
      { s.ctl with
        cmd := 0x52, idx := 3, arg := c2 ++ (c1 ++ c0), phase := .stream, remaining := 0,
        fifoIn := s.ctl.fifoIn.drop n }
      (s.ctl.fifoIn.take n ++ List.replicate (n - s.ctl.fifoIn.length) 0xFF) rest

/-- `r` holds the target in reset for exactly `RESET_HOLD_CYCLES` cycles, from the cycle after DISPATCH, leaves the
serial clock high, replies `'.'` and completes `RESET_HOLD_CYCLES + 3` cycles after it was taken (rules R170, R212). -/
def Obligations.ResetTargetPulsesTheResetLine : Prop :=
  ∀ (s : State) (rest : List Byte), s.params.wf = true → s.ctl.disp = .idle → s.rxChan = 0x72 :: rest →
    NoReset (s.params.resetHoldCycles + 3) s → (inputAt s (s.params.resetHoldCycles + 2)).txWritable = true →
    CompletesIn (s.params.resetHoldCycles + 3) s
      { s.ctl with
        cmd := 0x72, resp := 0x2E, rstCtr := ⟨holdWidth s.params, 0⟩, trstR := false, sclkR := true } [0x2E] rest ∧
    (∀ j ≤ 1, After j s fun u => u.ctl.trstR = s.ctl.trstR) ∧
    (∀ j, 2 ≤ j → j ≤ s.params.resetHoldCycles + 1 → After j s fun u => u.ctl.trstR = true) ∧
    After (s.params.resetHoldCycles + 2) s fun u => u.ctl.trstR = false

/-- `s a0` sets the target-clock divider, replies `'.'` and completes after 4 cycles (rules R171, R212). -/
def Obligations.SetTclkCompletesInFourCycles : Prop :=
  ∀ (s : State) (a0 : Byte) (rest : List Byte), s.ctl.disp = .idle → s.rxChan = 0x73 :: a0 :: rest → NoReset 4 s →
    (inputAt s 3).txWritable = true →
    CompletesIn 4 s { s.ctl with cmd := 0x73, resp := 0x2E, tclkDiv := a0 } [0x2E] rest

/-- `S` sets the serial divider to `{hi, lo}` in one write, when the high byte arrives, replies `'.'` and completes
after 5 cycles (rules R172, R212). -/
def Obligations.SetSclkCompletesInFiveCycles : Prop :=
  ∀ (s : State) (lo hi : Byte) (rest : List Byte), s.ctl.disp = .idle → s.rxChan = 0x53 :: lo :: hi :: rest →
    NoReset 5 s → (inputAt s 4).txWritable = true →
    CompletesIn 5 s
      { s.ctl with
        cmd := 0x53, resp := 0x2E, idx := 1, arg := s.ctl.arg.extractLsb' 8 16 ++ lo, sclkDiv := hi ++ lo }
      [0x2E] rest ∧
    After 3 s fun u => u.ctl.sclkDiv = s.ctl.sclkDiv

/-- `W` with `OUT` empty makes no phase of the serial clock and leaves both lines and `IN` alone in every cycle, replies
`'.'` in cycle 4 and completes after 5 cycles (rules R161, R212). -/
def Obligations.TransactOnEmptyOutOnlyReplies : Prop :=
  ∀ (s : State) (rest : List Byte), s.ctl.disp = .idle → s.ctl.fifoOut = [] → s.rxChan = 0x57 :: rest →
    NoReset 5 s → (inputAt s 4).txWritable = true →
    CompletesIn 5 s { s.ctl with cmd := 0x57, resp := 0x2E, bit := 0, eng := .eIdle } [0x2E] rest ∧
    (∀ j ≤ 5, After j s fun u =>
      u.ctl.sclkR = s.ctl.sclkR ∧ u.ctl.txdR = s.ctl.txdR ∧ u.ctl.fifoIn = s.ctl.fifoIn) ∧
    After 4 s fun u => u.sent = s.sent

/-! ### The serial transaction -/

/-- A phase of the serial clock ends exactly on the next tick of the free-running divider: `sclk_div - sclk_ctr + 1`
cycles away, or one where the counter is already there; until then nothing the dispatcher writes changes (rules R100,
R154, R182). -/
def Obligations.LowPhaseEndsOnTheNextTick : Prop :=
  ∀ s : State, s.ctl.disp = .sendTransaction → s.ctl.eng = .clockLow →
    NoReset (s.ctl.sclkDiv.toNat - s.prim.sclkCtr.toNat + 1) s →
    (∀ j ≤ s.ctl.sclkDiv.toNat - s.prim.sclkCtr.toNat, After j s fun u => u.ctl = s.ctl) ∧
    After (s.ctl.sclkDiv.toNat - s.prim.sclkCtr.toNat + 1) s fun t =>
      t.ctl = { s.ctl with sclkR := true, eng := .clockHigh } ∧ t.prim.sclkCtr = 0

/-- The line timing of one byte (rules R62, R158): from the first low-phase cycle of bit 0, right after a tick, and
with `P = sclk_div + 1`, the serial clock is low for `P` cycles and high for `P` cycles in each of eight bit periods,
the data line carries bit `i` through bit period `i`, the sample of bit `i` is the line of the last-but-one cycle of
its period, and WRITEBACK comes after `16 P` cycles. The busy line has no part in it (rule R160). -/
def Obligations.ByteIsClockedInSixteenPhases : Prop :=
  ∀ s : State, s.ctl.disp = .sendTransaction → s.ctl.eng = .clockLow → s.ctl.bit = 0 → s.ctl.sclkR = false →
    s.ctl.txdR = s.ctl.tx.getLsbD 0 → s.prim.sclkCtr = 0 →
    let P := s.ctl.sclkDiv.toNat + 1
    NoReset (16 * P) s →
    (∀ i < 8, ∀ j < P,
      (After (2 * i * P + j) s fun u => u.ctl.sclkR = false ∧ u.ctl.txdR = s.ctl.tx.getLsbD i) ∧
      After ((2 * i + 1) * P + j) s fun u => u.ctl.sclkR = true ∧ u.ctl.txdR = s.ctl.tx.getLsbD i) ∧
    After (16 * P) s fun t =>
      t.ctl.disp = .sendTransaction ∧ t.ctl.eng = .writeback ∧ t.ctl.sclkR = true ∧
      t.ctl.txdR = s.ctl.tx.getLsbD 7 ∧ t.ctl.fifoOut = s.ctl.fifoOut ∧ t.ctl.fifoIn = s.ctl.fifoIn ∧
      ∀ i < 8, t.ctl.sr.getLsbD i = (inputAt s ((2 * i + 2) * P - 2)).rxdIn

/-- With the two data lines joined, the captured byte is the byte sent, for every divider value (rule R159). -/
def Obligations.LoopbackCapturesTheByteSent : Prop :=
  ∀ s : State, s.ctl.disp = .sendTransaction → s.ctl.eng = .clockLow → s.ctl.bit = 0 → s.ctl.sclkR = false →
    s.ctl.txdR = s.ctl.tx.getLsbD 0 → s.prim.sclkCtr = 0 →
    let P := s.ctl.sclkDiv.toNat + 1
    NoReset (16 * P) s → (∀ j < 16 * P, After j s fun u => u.now.rxdIn = u.ctl.txdR) →
    After (16 * P) s fun t => t.ctl.eng = .writeback ∧ t.ctl.sr = s.ctl.tx

/-- A transaction that has reached its reply has sent every byte of `OUT`, each in a slot of its own and in order, and
has appended to `IN`, behind what `IN` held, the bytes captured in those slots (rules R67, R157). The slot of byte `j`
is the `16 P` cycles from `start j` on, `P = sclk_div + 1`: it begins in the first low-phase cycle of bit 0, with byte `j`
being sent and the later ones still in `OUT`; the data line carries bit `i` of byte `j` through bit period `i`; bit `i` of
the captured byte `j` is the line of the last-but-one cycle of that period (rule R158). -/
def Obligations.TransactionIsFullDuplex : Prop :=
  ∀ (s : State) (k : Nat), s.ctl.disp = .sendTransaction → s.ctl.eng = .start → NoReset k s →
    (∀ j < k, After j s fun u => u.ctl.disp = .sendTransaction) → (After k s fun t => t.ctl.disp = .respond) →
    let N := s.ctl.fifoOut.length
    let P := s.ctl.sclkDiv.toNat + 1
    ∃ (captured : List Byte) (start : Nat → Nat),
      captured.length = N ∧
      (After k s fun t => t.ctl.resp = 0x2E ∧ t.ctl.fifoOut = [] ∧ t.sent = s.sent ∧
        t.ctl.fifoIn = s.ctl.fifoIn ++ captured) ∧
      ∀ j < N,
        start j + 16 * P < k ∧ (j + 1 < N → start j + 16 * P < start (j + 1)) ∧
        (After (start j) s fun u => u.ctl.eng = .clockLow ∧ u.ctl.bit = 0 ∧ u.prim.sclkCtr = 0 ∧
          u.ctl.tx = s.ctl.fifoOut.getD j 0 ∧ u.ctl.fifoOut = s.ctl.fifoOut.drop (j + 1)) ∧
        ∀ i < 8,
          (∀ m < 2 * P, After (start j + 2 * i * P + m) s fun u =>
            u.ctl.txdR = (s.ctl.fifoOut.getD j 0).getLsbD i) ∧
          (captured.getD j 0).getLsbD i = (inputAt s (start j + (2 * i + 2) * P - 2)).rxdIn

/-- A transaction ends where the target is never busy and `IN` has room for all of `OUT`: within
`2 + N * (17 P + 2)` cycles of START for `N` bytes (rules R157, R163, R204). -/
def Obligations.TransactionEndsWithAFreeTarget : Prop :=
  ∀ s : State, s.ctl.disp = .sendTransaction → s.ctl.eng = .start → s.prim.busyR = false →
    s.ctl.fifoIn.length + s.ctl.fifoOut.length ≤ s.params.inDepth →
    let bound := 2 + s.ctl.fifoOut.length * (17 * (s.ctl.sclkDiv.toNat + 1) + 2)
    NoReset bound s → (∀ j < bound, (inputAt s j).busyIn = false) →
    ∃ k ≤ bound, After k s fun t => t.ctl.disp = .respond ∧ t.ctl.resp = 0x2E ∧ t.ctl.fifoOut = [] ∧
      t.ctl.fifoIn.length = s.ctl.fifoIn.length + s.ctl.fifoOut.length

/-- The waits of rule R182 last as long as their condition stays false, as holds and not as faults: W1 and W2 while no
host byte comes, W3 while the transmit core accepts nothing, W4 while the target is busy, W6 while `IN` is full. -/
def Obligations.WaitsMayLastForEver : Prop :=
  ∀ (s : State) (k : Nat), NoReset k s →
    (((s.ctl.disp = .idle ∨ s.ctl.disp = .fifoWrite ∨ s.ctl.disp = .setTclk ∨ s.ctl.disp = .setSclk ∨
          (s.ctl.disp = .fifoReadback ∧ s.ctl.phase = .arg)) ∧ s.rxChan = [] ∧ arrivals s k = []) ∨
      ((s.ctl.disp = .respond ∨ s.ctl.disp = .timerReport ∨
          (s.ctl.disp = .fifoReadback ∧ s.ctl.phase = .stream ∧ s.ctl.remaining ≠ 0)) ∧
        ∀ j < k, (inputAt s j).txWritable = false) ∨
      (s.ctl.disp = .sendTransaction ∧ s.ctl.eng = .waitNotBusy ∧ s.prim.busyR = true ∧
        ∀ j < k, (inputAt s j).busyIn = true) ∨
      (s.ctl.disp = .sendTransaction ∧ s.ctl.eng = .writeback ∧ s.ctl.fifoIn.length = s.params.inDepth)) →
    After k s fun t => t.ctl = s.ctl ∧ t.sent = s.sent

/-! ### The whole machine -/

/-- The invariant holds in the reset state. -/
def Obligations.ResetMeetsTheInvariant : Prop := BlockInv State.reset

/-- Every step keeps the invariant, from every state that meets it. -/
def Obligations.StepKeepsTheInvariant : Prop := ∀ s t : State, BlockInv s → step s = .next t → BlockInv t

/-- The invariant `running == busy_p` by itself, kept by every step from every state that meets it (rule R97). -/
def Obligations.RunningFollowsTheEdgeDetector : Prop :=
  ∀ s t : State, s.prim.running = s.prim.busyP → step s = .next t → t.prim.running = t.prim.busyP

/-- FIFO contents change only by the pushes and pops the rules name, and by reset (rules R55 to R57): `OUT` is pushed
only in FIFO_WRITE where it is not full, and popped only in FLUSH and PREPARE; `IN` is pushed only in WRITEBACK where
it is not full, and popped only in FLUSH and FIFO_READBACK. -/
def Obligations.FifosChangeOnlyByTheirRules : Prop :=
  ∀ s t : State, s.now.rst = false → step s = .next t →
    (t.ctl.fifoOut = s.ctl.fifoOut ∨
      (s.ctl.disp = .fifoWrite ∧ s.ctl.fifoOut.length ≠ s.params.outDepth ∧
        ∃ b rest, s.rxChan = b :: rest ∧ t.ctl.fifoOut = s.ctl.fifoOut ++ [b]) ∨
      ((s.ctl.disp = .flush ∨ (s.ctl.disp = .sendTransaction ∧ s.ctl.eng = .prepare)) ∧
        ∃ b, s.ctl.fifoOut = b :: t.ctl.fifoOut)) ∧
    (t.ctl.fifoIn = s.ctl.fifoIn ∨
      (s.ctl.disp = .sendTransaction ∧ s.ctl.eng = .writeback ∧ s.ctl.fifoIn.length ≠ s.params.inDepth ∧
        t.ctl.fifoIn = s.ctl.fifoIn ++ [s.ctl.sr]) ∨
      ((s.ctl.disp = .flush ∨ (s.ctl.disp = .fifoReadback ∧ s.ctl.phase = .stream)) ∧
        ∃ b, s.ctl.fifoIn = b :: t.ctl.fifoIn))

/-- Each of these registers is written only in the states its rule names (rules R26, R27, R28, R31, R32, R36, R37, R43,
R44), and no step changes the parameters (rule R9). -/
def Obligations.RegistersAreWrittenOnlyByTheirRules : Prop :=
  ∀ s t : State, s.now.rst = false → step s = .next t →
    t.params = s.params ∧
    (t.ctl.cmd ≠ s.ctl.cmd → s.ctl.disp = .idle ∧ s.rxChan ≠ []) ∧
    (t.ctl.resp ≠ s.ctl.resp → t.ctl.disp = .respond ∧ s.ctl.disp ≠ .respond) ∧
    (t.ctl.phase ≠ s.ctl.phase → s.ctl.disp = .dispatch ∨ s.ctl.disp = .fifoReadback) ∧
    (t.ctl.remaining ≠ s.ctl.remaining → s.ctl.disp = .fifoReadback) ∧
    (t.ctl.snap ≠ s.ctl.snap → s.ctl.disp = .dispatch ∧ s.ctl.cmd = 0x74 ∧ t.ctl.snap = s.prim.count) ∧
    (t.ctl.tclkDiv ≠ s.ctl.tclkDiv → s.ctl.disp = .setTclk) ∧
    (t.ctl.sclkDiv ≠ s.ctl.sclkDiv → s.ctl.disp = .setSclk ∧ s.ctl.idx ≠ 0) ∧
    (t.ctl.trstR ≠ s.ctl.trstR → (s.ctl.disp = .dispatch ∧ s.ctl.cmd = 0x72) ∨ s.ctl.disp = .resetTarget) ∧
    (t.ctl.sclkR ≠ s.ctl.sclkR → s.ctl.disp = .resetTarget ∨
      (s.ctl.disp = .sendTransaction ∧ s.ctl.sclkDiv.toNat ≤ s.prim.sclkCtr.toNat)) ∧
    (t.ctl.txdR ≠ s.ctl.txdR → s.ctl.disp = .sendTransaction ∧ t.ctl.eng = .clockLow ∧ s.ctl.eng ≠ .clockLow)
end

