-- ==== Sys2Proof/Laws/Decode.lean ====
section
/-! SUPPORT. The small lemmas of the decoder and the encoder: which command a command byte selects, how many bytes it
takes, and the bytes of an assembled argument. -/

namespace Sys2Proof

/-! ### `instrOf` and `argCount` at each opcode -/

section
variable (a0 a1 a2 a3 : Byte)

@[simp] theorem instrOf_version : instrOf opVersion a0 a1 a2 a3 = .version := rfl
@[simp] theorem instrOf_flush : instrOf opFlush a0 a1 a2 a3 = .flush := rfl
@[simp] theorem instrOf_resetTarget : instrOf opResetTarget a0 a1 a2 a3 = .resetTarget := rfl
@[simp] theorem instrOf_stage : instrOf opStage a0 a1 a2 a3 = .stage a0 := rfl
@[simp] theorem instrOf_transact : instrOf opTransact a0 a1 a2 a3 = .transact := rfl
@[simp] theorem instrOf_readback : instrOf opReadback a0 a1 a2 a3 = .readback (le32 a0 a1 a2 a3) := rfl
@[simp] theorem instrOf_timerReport : instrOf opTimerReport a0 a1 a2 a3 = .timerReport := rfl
@[simp] theorem instrOf_timerStatus : instrOf opTimerStatus a0 a1 a2 a3 = .timerStatus := rfl
@[simp] theorem instrOf_setTclk : instrOf opSetTclk a0 a1 a2 a3 = .setTclk a0 := rfl
@[simp] theorem instrOf_setSclk : instrOf opSetSclk a0 a1 a2 a3 = .setSclk (le16 a0 a1) := rfl

end

@[simp] theorem argCount_version : argCount opVersion = 0 := rfl
@[simp] theorem argCount_flush : argCount opFlush = 0 := rfl
@[simp] theorem argCount_resetTarget : argCount opResetTarget = 0 := rfl
@[simp] theorem argCount_stage : argCount opStage = 1 := rfl
@[simp] theorem argCount_transact : argCount opTransact = 0 := rfl
@[simp] theorem argCount_readback : argCount opReadback = 4 := rfl
@[simp] theorem argCount_timerReport : argCount opTimerReport = 0 := rfl
@[simp] theorem argCount_timerStatus : argCount opTimerStatus = 0 := rfl
@[simp] theorem argCount_setTclk : argCount opSetTclk = 1 := rfl
@[simp] theorem argCount_setSclk : argCount opSetSclk = 2 := rfl

/-- A byte outside the opcode map is an unknown command of one byte (rule R75). -/
theorem instrOf_unknown {b : Byte} (h : b ∉ opcodes) (a0 a1 a2 a3 : Byte) :
    instrOf b a0 a1 a2 a3 = .unknown b ∧ argCount b = 0 := by
  simp only [opcodes, List.mem_cons, not_or] at h
  simp [instrOf, argCount, h]

/-- A byte is one of the ten opcodes or is outside the map. -/
theorem opcode_cases (b : Byte) :
    b = opVersion ∨ b = opFlush ∨ b = opResetTarget ∨ b = opStage ∨ b = opTransact ∨ b = opReadback ∨
      b = opTimerReport ∨ b = opTimerStatus ∨ b = opSetTclk ∨ b = opSetSclk ∨ b ∉ opcodes := by
  by_cases h : b ∈ opcodes
  · simp only [opcodes, List.mem_cons, List.not_mem_nil, or_false] at h
    tauto
  · tauto

/-- The command byte of a decoded command is the byte it was decoded from. -/
theorem opcodeOf_instrOf (op a0 a1 a2 a3 : Byte) : opcodeOf (instrOf op a0 a1 a2 a3) = op := by
  rcases opcode_cases op with h | h | h | h | h | h | h | h | h | h | h
  all_goals first
    | (subst h; simp [opcodeOf, encode])
    | simp [(instrOf_unknown h a0 a1 a2 a3).1, opcodeOf, encode]

/-! ### Bytes of an assembled argument (rule R60) -/

/-- A concatenation read as a number: the high part counts `2 ^ m` times. -/
theorem append_toNat {n m : Nat} (x : BitVec n) (y : BitVec m) : (x ++ y).toNat = x.toNat * 2 ^ m + y.toNat := by
  rw [BitVec.toNat_append, ← Nat.shiftLeft_add_eq_or_of_lt y.isLt, Nat.shiftLeft_eq]

section
variable (c0 c1 c2 c3 : Byte)

@[simp] theorem byteAt_le16_zero : byteAt (le16 c0 c1) 0 = c0 := by simp [byteAt, le16]; grind
@[simp] theorem byteAt_le16_one : byteAt (le16 c0 c1) 1 = c1 := by simp [byteAt, le16]; grind
@[simp] theorem byteAt_le32_zero : byteAt (le32 c0 c1 c2 c3) 0 = c0 := by simp [byteAt, le32]; grind
@[simp] theorem byteAt_le32_one : byteAt (le32 c0 c1 c2 c3) 1 = c1 := by simp [byteAt, le32]; grind
@[simp] theorem byteAt_le32_two : byteAt (le32 c0 c1 c2 c3) 2 = c2 := by simp [byteAt, le32]; grind
@[simp] theorem byteAt_le32_three : byteAt (le32 c0 c1 c2 c3) 3 = c3 := by simp [byteAt, le32]; grind

end

@[simp] theorem le16_byteAt (v : Word16) : le16 (byteAt v 0) (byteAt v 1) = v := by
  apply BitVec.eq_of_getLsbD_eq; intro i hi; simp [byteAt, le16]; grind

@[simp] theorem le32_byteAt (v : Word32) : le32 (byteAt v 0) (byteAt v 1) (byteAt v 2) (byteAt v 3) = v := by
  apply BitVec.eq_of_getLsbD_eq; intro i hi; simp [byteAt, le32]; grind

end Sys2Proof
end

