-- ==== Sys2Proof/Laws/State.lean ====
section
/-! SUPPORT. One lemma per field per named update: each is true by unfolding, so that no later proof unfolds a record
update. -/

namespace Sys2Proof.Machine

/-! ### `setCtl`, `rxTake`, `txPut` -/

@[simp] theorem setCtl_ctl (c : Control) : (setCtl c).ctl = c := rfl
@[simp] theorem setCtl_rxAck (c : Control) : (setCtl c).rxAck = false := rfl
@[simp] theorem setCtl_tx (c : Control) : (setCtl c).tx = none := rfl
@[simp] theorem rxTake_ctl (c : Control) : (rxTake c).ctl = c := rfl
@[simp] theorem rxTake_rxAck (c : Control) : (rxTake c).rxAck = true := rfl
@[simp] theorem rxTake_tx (c : Control) : (rxTake c).tx = none := rfl
@[simp] theorem txPut_ctl (b : Byte) (c : Control) : (txPut b c).ctl = c := rfl
@[simp] theorem txPut_rxAck (b : Byte) (c : Control) : (txPut b c).rxAck = false := rfl
@[simp] theorem txPut_tx (b : Byte) (c : Control) : (txPut b c).tx = some b := rfl

/-! ### `answer` -/

@[simp] theorem answer_disp (b : Byte) (c : Control) : (answer b c).disp = .respond := rfl
@[simp] theorem answer_phase (b : Byte) (c : Control) : (answer b c).phase = c.phase := rfl
@[simp] theorem answer_cmd (b : Byte) (c : Control) : (answer b c).cmd = c.cmd := rfl
@[simp] theorem answer_resp (b : Byte) (c : Control) : (answer b c).resp = b := rfl
@[simp] theorem answer_arg (b : Byte) (c : Control) : (answer b c).arg = c.arg := rfl
@[simp] theorem answer_idx (b : Byte) (c : Control) : (answer b c).idx = c.idx := rfl
@[simp] theorem answer_remaining (b : Byte) (c : Control) : (answer b c).remaining = c.remaining := rfl
@[simp] theorem answer_snap (b : Byte) (c : Control) : (answer b c).snap = c.snap := rfl
@[simp] theorem answer_rstCtr (b : Byte) (c : Control) : (answer b c).rstCtr = c.rstCtr := rfl
@[simp] theorem answer_eng (b : Byte) (c : Control) : (answer b c).eng = c.eng := rfl
@[simp] theorem answer_bit (b : Byte) (c : Control) : (answer b c).bit = c.bit := rfl
@[simp] theorem answer_tx (b : Byte) (c : Control) : (answer b c).tx = c.tx := rfl
@[simp] theorem answer_sr (b : Byte) (c : Control) : (answer b c).sr = c.sr := rfl
@[simp] theorem answer_tclkDiv (b : Byte) (c : Control) : (answer b c).tclkDiv = c.tclkDiv := rfl
@[simp] theorem answer_sclkDiv (b : Byte) (c : Control) : (answer b c).sclkDiv = c.sclkDiv := rfl
@[simp] theorem answer_sclkR (b : Byte) (c : Control) : (answer b c).sclkR = c.sclkR := rfl
@[simp] theorem answer_txdR (b : Byte) (c : Control) : (answer b c).txdR = c.txdR := rfl
@[simp] theorem answer_trstR (b : Byte) (c : Control) : (answer b c).trstR = c.trstR := rfl
@[simp] theorem answer_fifoOut (b : Byte) (c : Control) : (answer b c).fifoOut = c.fifoOut := rfl
@[simp] theorem answer_fifoIn (b : Byte) (c : Control) : (answer b c).fifoIn = c.fifoIn := rfl

/-! ### `startBit` -/

@[simp] theorem startBit_disp (i : BitVec 3) (c : Control) : (startBit i c).disp = c.disp := rfl
@[simp] theorem startBit_phase (i : BitVec 3) (c : Control) : (startBit i c).phase = c.phase := rfl
@[simp] theorem startBit_cmd (i : BitVec 3) (c : Control) : (startBit i c).cmd = c.cmd := rfl
@[simp] theorem startBit_resp (i : BitVec 3) (c : Control) : (startBit i c).resp = c.resp := rfl
@[simp] theorem startBit_arg (i : BitVec 3) (c : Control) : (startBit i c).arg = c.arg := rfl
@[simp] theorem startBit_idx (i : BitVec 3) (c : Control) : (startBit i c).idx = c.idx := rfl
@[simp] theorem startBit_remaining (i : BitVec 3) (c : Control) : (startBit i c).remaining = c.remaining := rfl
@[simp] theorem startBit_snap (i : BitVec 3) (c : Control) : (startBit i c).snap = c.snap := rfl
@[simp] theorem startBit_rstCtr (i : BitVec 3) (c : Control) : (startBit i c).rstCtr = c.rstCtr := rfl
@[simp] theorem startBit_eng (i : BitVec 3) (c : Control) : (startBit i c).eng = .clockLow := rfl
@[simp] theorem startBit_bit (i : BitVec 3) (c : Control) : (startBit i c).bit = i := rfl
@[simp] theorem startBit_tx (i : BitVec 3) (c : Control) : (startBit i c).tx = c.tx := rfl
@[simp] theorem startBit_sr (i : BitVec 3) (c : Control) : (startBit i c).sr = c.sr := rfl
@[simp] theorem startBit_tclkDiv (i : BitVec 3) (c : Control) : (startBit i c).tclkDiv = c.tclkDiv := rfl
@[simp] theorem startBit_sclkDiv (i : BitVec 3) (c : Control) : (startBit i c).sclkDiv = c.sclkDiv := rfl
@[simp] theorem startBit_sclkR (i : BitVec 3) (c : Control) : (startBit i c).sclkR = false := rfl
@[simp] theorem startBit_txdR (i : BitVec 3) (c : Control) : (startBit i c).txdR = c.tx.getLsbD i.toNat := rfl
@[simp] theorem startBit_trstR (i : BitVec 3) (c : Control) : (startBit i c).trstR = c.trstR := rfl
@[simp] theorem startBit_fifoOut (i : BitVec 3) (c : Control) : (startBit i c).fifoOut = c.fifoOut := rfl
@[simp] theorem startBit_fifoIn (i : BitVec 3) (c : Control) : (startBit i c).fifoIn = c.fifoIn := rfl

/-! ### `envNext` -/

@[simp] theorem envNext_params (a : Bool) (tx : Option Byte) (s : State) :
    (envNext a tx s).params = s.params := rfl
@[simp] theorem envNext_ctl (a : Bool) (tx : Option Byte) (s : State) :
    (envNext a tx s).ctl = s.ctl := rfl
@[simp] theorem envNext_prim (a : Bool) (tx : Option Byte) (s : State) :
    (envNext a tx s).prim = s.prim := rfl
@[simp] theorem envNext_out (a : Bool) (tx : Option Byte) (s : State) :
    (envNext a tx s).out = { rxAck := a, txWe := tx.isSome, txData := tx.getD 0x00 } := rfl
@[simp] theorem envNext_rxChan (a : Bool) (tx : Option Byte) (s : State) :
    (envNext a tx s).rxChan = (if a then s.rxChan.tail else s.rxChan) ++ s.now.hostBytes := rfl
@[simp] theorem envNext_sent (a : Bool) (tx : Option Byte) (s : State) :
    (envNext a tx s).sent = s.sent ++ tx.toList := rfl
@[simp] theorem envNext_now (a : Bool) (tx : Option Byte) (s : State) :
    (envNext a tx s).now = nextInputs s := rfl
@[simp] theorem envNext_later (a : Bool) (tx : Option Byte) (s : State) :
    (envNext a tx s).later = s.later.tail := rfl
@[simp] theorem envNext_cycle (a : Bool) (tx : Option Byte) (s : State) :
    (envNext a tx s).cycle = s.cycle + 1 := rfl

/-! ### `clockCycle` -/

@[simp] theorem clockCycle_params (a : Act) (s : State) :
    (clockCycle a s).params = s.params := rfl
@[simp] theorem clockCycle_ctl (a : Act) (s : State) :
    (clockCycle a s).ctl = a.ctl := rfl
@[simp] theorem clockCycle_prim (a : Act) (s : State) :
    (clockCycle a s).prim = primNext s.now s.ctl s.prim := rfl
@[simp] theorem clockCycle_out (a : Act) (s : State) :
    (clockCycle a s).out = { rxAck := a.rxAck, txWe := a.tx.isSome, txData := a.tx.getD 0x00 } := rfl
@[simp] theorem clockCycle_rxChan (a : Act) (s : State) :
    (clockCycle a s).rxChan = (if a.rxAck then s.rxChan.tail else s.rxChan) ++ s.now.hostBytes := rfl
@[simp] theorem clockCycle_sent (a : Act) (s : State) :
    (clockCycle a s).sent = s.sent ++ a.tx.toList := rfl
@[simp] theorem clockCycle_now (a : Act) (s : State) :
    (clockCycle a s).now = nextInputs s := rfl
@[simp] theorem clockCycle_later (a : Act) (s : State) :
    (clockCycle a s).later = s.later.tail := rfl
@[simp] theorem clockCycle_cycle (a : Act) (s : State) :
    (clockCycle a s).cycle = s.cycle + 1 := rfl

/-! ### `resetCycle` -/

@[simp] theorem resetCycle_params (s : State) : (resetCycle s).params = s.params := rfl
@[simp] theorem resetCycle_ctl (s : State) : (resetCycle s).ctl = Control.reset s.params := rfl
@[simp] theorem resetCycle_prim (s : State) : (resetCycle s).prim = Primitives.reset := rfl
@[simp] theorem resetCycle_out (s : State) : (resetCycle s).out = HostOutputs.quiet := rfl
@[simp] theorem resetCycle_rxChan (s : State) : (resetCycle s).rxChan = s.rxChan ++ s.now.hostBytes := rfl
@[simp] theorem resetCycle_sent (s : State) : (resetCycle s).sent = s.sent := by simp [resetCycle]
@[simp] theorem resetCycle_now (s : State) : (resetCycle s).now = nextInputs s := rfl
@[simp] theorem resetCycle_later (s : State) : (resetCycle s).later = s.later.tail := rfl
@[simp] theorem resetCycle_cycle (s : State) : (resetCycle s).cycle = s.cycle + 1 := rfl

/-! ### `seen` -/

@[simp] theorem seen_params (bytes : List Byte) (s : State) : (seen bytes s).params = s.params := rfl
@[simp] theorem seen_prim (bytes : List Byte) (s : State) : (seen bytes s).prim = s.prim := rfl
@[simp] theorem seen_rxReadable (bytes : List Byte) (s : State) : (seen bytes s).rxReadable = !s.rxChan.isEmpty := rfl
@[simp] theorem seen_txWritable (bytes : List Byte) (s : State) : (seen bytes s).txWritable = s.now.txWritable := rfl
@[simp] theorem seen_rxData (bytes : List Byte) (s : State) : (seen bytes s).rxData = bytes.getD (bytesTaken s.ctl) (Config.idleRxData s.cycle) := rfl

/-! ### `primNext` -/

@[simp] theorem primNext_busyR (inp : Inputs) (c : Control) (p : Primitives) :
    (primNext inp c p).busyR = inp.busyIn := rfl
@[simp] theorem primNext_busyP (inp : Inputs) (c : Control) (p : Primitives) :
    (primNext inp c p).busyP = p.busyR := rfl
@[simp] theorem primNext_rxdR (inp : Inputs) (c : Control) (p : Primitives) :
    (primNext inp c p).rxdR = inp.rxdIn := rfl
@[simp] theorem primNext_tclkCtr (inp : Inputs) (c : Control) (p : Primitives) :
    (primNext inp c p).tclkCtr = dividerNext p.tclkCtr c.tclkDiv := rfl
@[simp] theorem primNext_sclkCtr (inp : Inputs) (c : Control) (p : Primitives) :
    (primNext inp c p).sclkCtr = dividerNext p.sclkCtr c.sclkDiv := rfl
@[simp] theorem primNext_tclkR (inp : Inputs) (c : Control) (p : Primitives) :
    (primNext inp c p).tclkR = if tclkTick p c then !p.tclkR else p.tclkR := rfl
@[simp] theorem primNext_count (inp : Inputs) (c : Control) (p : Primitives) :
    (primNext inp c p).count = (timerNext p).1 := rfl
@[simp] theorem primNext_running (inp : Inputs) (c : Control) (p : Primitives) :
    (primNext inp c p).running = (timerNext p).2 := rfl

end Sys2Proof.Machine
end

