-- ==== Sys2Proof/Laws/Ops.lean ====
section
/-! SUPPORT. What each shared operation can do, said once: a proof about a cycle cites these instead of unfolding the
operation. -/

namespace Sys2Proof.Machine

/-! ### One cycle -/

/-- A cycle always ends in a next state: the reset cycle or the rule's. -/
theorem runCycle_eq (bytes : List Byte) (rule : Seen → Control → Act) (s : State) :
    runCycle bytes rule s =
      .next (if s.now.rst then resetCycle s else clockCycle (rule (seen bytes s) s.ctl) s) := by
  unfold runCycle; split <;> rfl

/-- What a cycle's next state is. -/
theorem runCycle_next {bytes : List Byte} {rule : Seen → Control → Act} {s t : State}
    (h : runCycle bytes rule s = .next t) :
    (s.now.rst = true ∧ t = resetCycle s) ∨
      (s.now.rst = false ∧ t = clockCycle (rule (seen bytes s) s.ctl) s) := by
  rw [runCycle_eq] at h
  cases hr : s.now.rst <;> simp_all

theorem runCycle_of_reset {bytes : List Byte} {rule : Seen → Control → Act} {s : State} (h : s.now.rst = true) :
    runCycle bytes rule s = .next (resetCycle s) := by simp [runCycle_eq, h]

theorem runCycle_of_running {bytes : List Byte} {rule : Seen → Control → Act} {s : State} (h : s.now.rst = false) :
    runCycle bytes rule s = .next (clockCycle (rule (seen bytes s) s.ctl) s) := by simp [runCycle_eq, h]

/-! ### The dispatcher's shared rules -/

theorem idleRule_of_readable {v : Seen} {c : Control} (h : v.rxReadable = true) :
    idleRule v c = rxTake { c with cmd := v.rxData, disp := .dispatch } := by simp [idleRule, h]

theorem idleRule_of_not_readable {v : Seen} {c : Control} (h : v.rxReadable = false) :
    idleRule v c = setCtl c := by simp [idleRule, h]

theorem respondRule_of_writable {v : Seen} {c : Control} (h : v.txWritable = true) :
    respondRule v c = txPut c.resp { c with disp := .idle } := by simp [respondRule, h]

theorem respondRule_of_not_writable {v : Seen} {c : Control} (h : v.txWritable = false) :
    respondRule v c = setCtl c := by simp [respondRule, h]

theorem awaitByte_of_readable {act : Byte → Control} {v : Seen} {c : Control} (h : v.rxReadable = true) :
    awaitByte act v c = rxTake (act v.rxData) := by simp [awaitByte, h]

theorem awaitByte_of_not_readable {act : Byte → Control} {v : Seen} {c : Control} (h : v.rxReadable = false) :
    awaitByte act v c = setCtl c := by simp [awaitByte, h]

section
variable {home : Disp} {entry : Seen → Control → Control} {branch : Seen → Control → Act} {v : Seen} {c : Control}

theorem commandRule_idle (h : c.disp = .idle) : commandRule home entry branch v c = idleRule v c := by
  simp [commandRule, h]

theorem commandRule_dispatch (h : c.disp = .dispatch) :
    commandRule home entry branch v c = setCtl (entry v c) := by simp [commandRule, h]

theorem commandRule_respond (h : c.disp = .respond) :
    commandRule home entry branch v c = respondRule v c := by simp [commandRule, h]

theorem commandRule_home (hi : home ≠ .idle) (hd : home ≠ .dispatch) (hr : home ≠ .respond) (h : c.disp = home) :
    commandRule home entry branch v c = branch v c := by
  subst h; simp [commandRule, hi, hd, hr]

/-- Everything a command's rule can do in a cycle. -/
theorem commandRule_cases :
    (c.disp = .idle ∧ commandRule home entry branch v c = idleRule v c) ∨
    (c.disp = .dispatch ∧ commandRule home entry branch v c = setCtl (entry v c)) ∨
    (c.disp = .respond ∧ commandRule home entry branch v c = respondRule v c) ∨
    (c.disp = home ∧ commandRule home entry branch v c = branch v c) ∨
    commandRule home entry branch v c = setCtl c := by
  unfold commandRule; split_ifs <;> simp_all

end

/-! ### The primitives -/

theorem dividerTick_iff {n : Nat} {c d : BitVec n} : dividerTick c d = true ↔ d.toNat ≤ c.toNat := by
  simp [dividerTick]

theorem dividerNext_of_tick {n : Nat} {c d : BitVec n} (h : d.toNat ≤ c.toNat) : dividerNext c d = 0 := by
  simp [dividerNext, dividerTick, h]

/-- Below its value a divider counts up without wrapping (rule R100). -/
theorem dividerNext_toNat_of_no_tick {n : Nat} {c d : BitVec n} (h : c.toNat < d.toNat) :
    (dividerNext c d).toNat = c.toNat + 1 := by
  have hd := d.isLt
  simpa [dividerNext, dividerTick, Nat.not_le.mpr h] using Nat.mod_eq_of_lt (by omega : c.toNat + 1 < 2 ^ n)

/-- Everything the busy-timer can do in a cycle (rule R94). -/
theorem timerNext_cases (p : Primitives) :
    (p.busyR = true ∧ p.busyP = false ∧ p.running = false ∧ timerNext p = (0, true)) ∨
    (p.busyR = false ∧ p.busyP = true ∧ timerNext p = (p.count, false)) ∨
    (¬(p.busyR = false ∧ p.busyP = true) ∧ p.running = true ∧ timerNext p = (p.count + 1, true)) ∨
    (p.busyR = p.busyP ∧ p.running = false ∧ timerNext p = (p.count, false)) := by
  cases h1 : p.busyR <;> cases h2 : p.busyP <;> cases h3 : p.running <;>
    simp [timerNext, rise, fall, h1, h2, h3]

/-! ### The hold counter (rule R33) -/

@[simp] theorem holdOf_width (p : Params) (n : Nat) : (holdOf p n).width = holdWidth p := rfl
@[simp] theorem holdNext_width (h : HoldCounter) : (holdNext h).width = h.width := rfl

/-- The counter has reached its end exactly where it holds 0. -/
theorem holdDone_iff {h : HoldCounter} : holdDone h = true ↔ holdNat h = 0 := by
  simp [holdDone, holdNat, ← BitVec.toNat_inj]

/-- The counter holds any value its width can. -/
theorem holdNat_holdOf {p : Params} {n : Nat} (h : n < 2 ^ holdWidth p) : holdNat (holdOf p n) = n := by
  simpa [holdOf, holdNat] using Nat.mod_eq_of_lt h

/-- Above 0 the counter counts down without wrapping. -/
theorem holdNat_holdNext {h : HoldCounter} (hz : holdDone h = false) : holdNat (holdNext h) = holdNat h - 1 := by
  have hn : h.value.toNat ≠ 0 := fun h0 => by simp [holdDone_iff.mpr h0] at hz
  have hb := h.value.isLt
  have hw : 1 < 2 ^ h.width := by omega
  have h1 : (1 : BitVec h.width).toNat = 1 := Nat.mod_eq_of_lt hw
  rw [holdNat, holdNext, BitVec.toNat_sub_of_le (BitVec.le_def.mpr (by rw [h1]; omega)), h1, holdNat]

end Sys2Proof.Machine
end

