-- ==== Sys2Proof/Laws/Exec.lean ====
section
/-! SUPPORT. What `exec` and `step` are made of: every command's meaning is one `runCycle` of its own rule. -/

namespace Sys2Proof.Machine

/-- The dispatcher rule of a command: the one its meaning runs. -/
def ruleOf : Instr → Seen → Control → Act
  | .version => commandRule .respondVersion (fun _ c => { c with disp := .respondVersion }) respondVersionRule
  | .flush => commandRule .flush (fun _ c => { c with disp := .flush }) flushRule
  | .resetTarget =>
    commandRule .resetTarget
      (fun v c => { c with trstR := true, rstCtr := holdOf v.params (v.params.resetHoldCycles - 1), disp := .resetTarget })
      resetTargetRule
  | .stage _ => commandRule .fifoWrite (fun _ c => { c with disp := .fifoWrite }) fifoWriteRule
  | .transact =>
    commandRule .sendTransaction (fun _ c => { c with eng := .start, disp := .sendTransaction }) engineRule
  | .readback _ =>
    commandRule .fifoReadback (fun _ c => { c with idx := 0, phase := .arg, disp := .fifoReadback }) fifoReadbackRule
  | .timerReport =>
    commandRule .timerReport (fun v c => { c with snap := v.prim.count, idx := 0, disp := .timerReport })
      timerReportRule
  | .timerStatus => commandRule .timerStatus (fun _ c => { c with disp := .timerStatus }) timerStatusRule
  | .setTclk _ => commandRule .setTclk (fun _ c => { c with disp := .setTclk }) setTclkRule
  | .setSclk _ => commandRule .setSclk (fun _ c => { c with idx := 0, disp := .setSclk }) setSclkRule
  | .unknown _ => commandRule .respond (fun _ c => answer replyUnknown c) (fun _ c => setCtl c)

/-- A command's meaning is one cycle of its rule with its own bytes presented. -/
theorem exec_eq (i : Instr) (s : State) : exec i s = runCycle (encode i) (ruleOf i) s := by
  cases i <;> rfl

/-- A step with a command in hand. -/
theorem step_of_inHand {s : State} {i : Instr} (h : inHand s = some i) : step s = exec i s := by
  simp [step, h]

/-- A step with no command in hand, which is an IDLE cycle with nothing presented. -/
theorem step_of_none {s : State} (h : inHand s = none) : step s = idleCycle s := by
  simp [step, h]

/-- No command is in hand exactly in IDLE with an empty receive channel. -/
theorem inHand_eq_none_iff {s : State} : inHand s = none ↔ s.ctl.disp = .idle ∧ s.rxChan = [] := by
  unfold inHand opcodeInHand
  cases s.ctl.disp <;> simp

end Sys2Proof.Machine
end

