-- ==== Sys2Proof/Laws/Operands.lean ====
section
/-! SUPPORT. What the argument register, the shift register and the command in hand are, field by field. -/

namespace Sys2Proof.Machine

/-! ### The argument register (rule R29) -/

theorem setArgByte_zero (a : BitVec 24) (b : Byte) : setArgByte a 0 b = a.extractLsb' 8 16 ++ b := by
  apply BitVec.eq_of_getLsbD_eq; intro i hi; simp [setArgByte]; interval_cases i <;> grind

theorem setArgByte_one (a : BitVec 24) (b : Byte) :
    setArgByte a 1 b = a.extractLsb' 16 8 ++ (b ++ a.extractLsb' 0 8) := by
  apply BitVec.eq_of_getLsbD_eq; intro i hi; simp [setArgByte]; interval_cases i <;> grind

theorem setArgByte_two (a : BitVec 24) (b : Byte) : setArgByte a 2 b = b ++ a.extractLsb' 0 16 := by
  apply BitVec.eq_of_getLsbD_eq; intro i hi; simp [setArgByte]; interval_cases i <;> grind

/-! ### The receive shift register (rule R155) -/

theorem shiftIn_getLsbD_seven (rxd : Bool) (sr : Byte) : (shiftIn rxd sr).getLsbD 7 = rxd := by
  cases rxd <;> simp [shiftIn] <;> grind

theorem shiftIn_getLsbD_lt (rxd : Bool) (sr : Byte) {i : Nat} (h : i < 7) :
    (shiftIn rxd sr).getLsbD i = sr.getLsbD (i + 1) := by
  simp [shiftIn]; interval_cases i <;> grind

end Sys2Proof.Machine
end

