-- ==== Sys2Proof/Laws/PerInstr.lean ====
section
/-! SUPPORT. Statements about every command, made per command (LAWS.json, "per_instruction"). -/

namespace Sys2Proof.Laws.EncodedLength

/-- A well-formed command has as many bytes as its command byte asks for (rules R71, R78). -/
def Statement (i : Instr) : Prop := i.wellFormed = true → (encode i).length = 1 + argCount (opcodeOf i)

theorem version : Statement .version := by intro _; decide
theorem flush : Statement .flush := by intro _; decide
theorem resetTarget : Statement .resetTarget := by intro _; decide
theorem stage (a0 : Byte) : Statement (.stage a0) := by intro _; rfl
theorem transact : Statement .transact := by intro _; decide
theorem readback (n : Word32) : Statement (.readback n) := by intro _; rfl
theorem timerReport : Statement .timerReport := by intro _; decide
theorem timerStatus : Statement .timerStatus := by intro _; decide
theorem setTclk (a0 : Byte) : Statement (.setTclk a0) := by intro _; rfl
theorem setSclk (div : Word16) : Statement (.setSclk div) := by intro _; rfl

theorem unknown (b : Byte) : Statement (.unknown b) := by
  intro h
  have hb : b ∉ opcodes := by simpa [Instr.wellFormed] using h
  simp only [opcodes, List.mem_cons, not_or] at hb
  simp [encode, opcodeOf, argCount, hb]

end Sys2Proof.Laws.EncodedLength
end

