-- ==== Sys2Proof/Laws/Step.lean ====
section
/-! SUPPORT. What a step is, said once: whatever command is in hand, a step is the cycle of the dispatcher rule for the
current `disp` on the byte the receive channel presents (rule R110). Every proof about a step starts from `step_eq`
and never unfolds `exec`, `inHand` or `encode`. -/

namespace Sys2Proof.Machine

/-- What the dispatcher sees with the receive channel's own head on `rx_data`. -/
def onChannel (s : State) : Seen where
  params := s.params
  prim := s.prim
  rxReadable := !s.rxChan.isEmpty
  rxData := s.rxChan.headD 0
  txWritable := s.now.txWritable

@[simp] theorem onChannel_params (s : State) : (onChannel s).params = s.params := rfl
@[simp] theorem onChannel_prim (s : State) : (onChannel s).prim = s.prim := rfl
@[simp] theorem onChannel_rxReadable (s : State) : (onChannel s).rxReadable = !s.rxChan.isEmpty := rfl
@[simp] theorem onChannel_rxData (s : State) : (onChannel s).rxData = s.rxChan.headD 0 := rfl
@[simp] theorem onChannel_txWritable (s : State) : (onChannel s).txWritable = s.now.txWritable := rfl

/-- The entry assignments of DISPATCH, by the command byte (rule R112). -/
def dispatchEntry (v : Seen) (c : Control) : Control :=
  if c.cmd = opVersion then { c with disp := .respondVersion }
  else if c.cmd = opFlush then { c with disp := .flush }
  else if c.cmd = opResetTarget then
    { c with trstR := true, rstCtr := holdOf v.params (v.params.resetHoldCycles - 1), disp := .resetTarget }
  else if c.cmd = opStage then { c with disp := .fifoWrite }
  else if c.cmd = opTransact then { c with eng := .start, disp := .sendTransaction }
  else if c.cmd = opReadback then { c with idx := 0, phase := .arg, disp := .fifoReadback }
  else if c.cmd = opTimerReport then { c with snap := v.prim.count, idx := 0, disp := .timerReport }
  else if c.cmd = opTimerStatus then { c with disp := .timerStatus }
  else if c.cmd = opSetTclk then { c with disp := .setTclk }
  else if c.cmd = opSetSclk then { c with idx := 0, disp := .setSclk }
  else answer replyUnknown c

/-- The dispatcher rule for the current `disp` (rule R110). -/
def dispRule (v : Seen) (c : Control) : Act :=
  match c.disp with
  | .idle => idleRule v c
  | .dispatch => setCtl (dispatchEntry v c)
  | .respondVersion => respondVersionRule v c
  | .flush => flushRule v c
  | .resetTarget => resetTargetRule v c
  | .fifoWrite => fifoWriteRule v c
  | .sendTransaction => engineRule v c
  | .fifoReadback => fifoReadbackRule v c
  | .timerReport => timerReportRule v c
  | .timerStatus => timerStatusRule v c
  | .setTclk => setTclkRule v c
  | .setSclk => setSclkRule v c
  | .respond => respondRule v c

/-! ### A command's rule in the states of its own -/

/-- In DISPATCH every command's rule makes the entry assignments of its command byte. -/
theorem ruleOf_dispatch {i : Instr} {v : Seen} {c : Control} (hw : i.wellFormed = true) (h : c.disp = .dispatch)
    (hc : c.cmd = opcodeOf i) : ruleOf i v c = setCtl (dispatchEntry v c) := by
  cases i
  case unknown b =>
    have hb : b ∉ opcodes := by simpa [Instr.wellFormed] using hw
    have hc' : c.cmd = b := hc
    simp only [opcodes, List.mem_cons, List.not_mem_nil, or_false, not_or] at hb
    simp [ruleOf, commandRule_dispatch h, dispatchEntry, hc', hb]
  all_goals
    rw [ruleOf, commandRule_dispatch h]
    simp only [dispatchEntry, hc]
    rfl

/-- In RESPOND every command's rule is RESPOND's. -/
theorem ruleOf_respond {i : Instr} {v : Seen} {c : Control} (h : c.disp = .respond) :
    ruleOf i v c = respondRule v c := by
  cases i <;> rw [ruleOf, commandRule_respond h]

/-- In IDLE every command's rule is IDLE's. -/
theorem ruleOf_idle {i : Instr} {v : Seen} {c : Control} (h : c.disp = .idle) : ruleOf i v c = idleRule v c := by
  cases i <;> rw [ruleOf, commandRule_idle h]

/-- A rule reads `rx_data` only where a byte is presented and the dispatcher is in IDLE or in an argument wait. -/
theorem dispRule_congr {v w : Seen} {c : Control} (hp : w.params = v.params) (hq : w.prim = v.prim)
    (hr : w.rxReadable = v.rxReadable) (ht : w.txWritable = v.txWritable)
    (hd : v.rxReadable = true → (c.disp = .idle ∨ c.disp = .fifoWrite ∨ c.disp = .setTclk ∨ c.disp = .setSclk ∨
      c.disp = .fifoReadback) → w.rxData = v.rxData) : dispRule w c = dispRule v c := by
  obtain ⟨vp, vq, vr, vd, vt⟩ := v
  obtain ⟨wp, wq, wr, wd, wt⟩ := w
  simp only at hp hq hr ht hd
  subst hp hq hr ht
  cases hdisp : c.disp
  case idle | fifoWrite | setTclk | setSclk | fifoReadback =>
    cases wr with
    | true => rw [hd rfl (by simp [hdisp])]
    | false =>
      simp [dispRule, hdisp, idleRule, fifoWriteRule, setTclkRule, setSclkRule, fifoReadbackRule, readbackArgRule,
        readbackStreamRule, awaitByte]
  all_goals
    simp only [dispRule, hdisp, dispatchEntry, respondVersionRule, flushRule, resetTargetRule, engineRule,
      waitNotBusyRule, clockLowRule, clockHighRule, writebackRule, timerReportRule, timerStatusRule, respondRule]

/-- The branch state of a command (rule R119); an unknown command has none and goes straight to RESPOND. -/
def homeOf : Instr → Disp
  | .version => .respondVersion
  | .flush => .flush
  | .resetTarget => .resetTarget
  | .stage _ => .fifoWrite
  | .transact => .sendTransaction
  | .readback _ => .fifoReadback
  | .timerReport => .timerReport
  | .timerStatus => .timerStatus
  | .setTclk _ => .setTclk
  | .setSclk _ => .setSclk
  | .unknown _ => .respond

/-- A command's rule is the dispatcher's rule in every state on the command's path. -/
theorem ruleOf_eq_dispRule {i : Instr} {v : Seen} {c : Control} (hw : i.wellFormed = true)
    (hd : c.disp = .dispatch → c.cmd = opcodeOf i)
    (hb : c.disp ≠ .idle → c.disp ≠ .dispatch → c.disp ≠ .respond → c.disp = homeOf i) :
    ruleOf i v c = dispRule v c := by
  by_cases h1 : c.disp = .idle
  · rw [ruleOf_idle h1, dispRule, h1]
  by_cases h2 : c.disp = .dispatch
  · rw [ruleOf_dispatch hw h2 (hd h2), dispRule, h2]
  by_cases h3 : c.disp = .respond
  · rw [ruleOf_respond h3, dispRule, h3]
  have h := hb h1 h2 h3
  cases i
  case unknown => exact (h3 h).elim
  all_goals
    simp only [homeOf] at h
    rw [ruleOf, commandRule_home (by decide) (by decide) (by decide) h, dispRule, h]

/-! ### The step -/

/-- The command in hand is well formed. -/
theorem instrOf_wellFormed (op a0 a1 a2 a3 : Byte) : (instrOf op a0 a1 a2 a3).wellFormed = true := by
  rcases opcode_cases op with h | h | h | h | h | h | h | h | h | h | h
  all_goals first
    | (subst h; simp [Instr.wellFormed])
    | simp [(instrOf_unknown h a0 a1 a2 a3).1, Instr.wellFormed, h]

/-- With a command in hand, a cycle of that command is a cycle of the dispatcher rule, on what the channel presents. -/
theorem ruleOf_seen_eq {s : State} {i : Instr} (h : inHand s = some i) :
    ruleOf i (seen (encode i) s) s.ctl = dispRule (onChannel s) s.ctl := by
  obtain ⟨op, hop, rfl⟩ := Option.map_eq_some_iff.mp h
  have hw := instrOf_wellFormed op (byteInHand s 1) (byteInHand s 2) (byteInHand s 3) (byteInHand s 4)
  have hop' := opcodeOf_instrOf op (byteInHand s 1) (byteInHand s 2) (byteInHand s 3) (byteInHand s 4)
  rw [ruleOf_eq_dispRule hw]
  · refine dispRule_congr rfl rfl rfl rfl fun hr hd => ?_
    obtain ⟨b, rest, hrx⟩ : ∃ b rest, s.rxChan = b :: rest := by
      cases hx : s.rxChan <;> simp_all
    simp only [seen_rxData, onChannel_rxData, hrx, List.headD_cons]
    rcases hd with hd | hd | hd | hd | hd <;> simp only [opcodeInHand, hd, hrx, List.head?_cons, Option.some.injEq] at hop
    · subst hop
      cases he : encode (instrOf b (byteInHand s 1) (byteInHand s 2) (byteInHand s 3) (byteInHand s 4)) with
      | nil => generalize instrOf b _ _ _ _ = j at he; cases j <;> simp [encode] at he
      | cons c cs => simpa [opcodeOf, he, bytesTaken, hd] using hop'
    · subst hop; simp [encode, bytesTaken, byteInHand, hd, hrx]
    · subst hop; simp [encode, bytesTaken, byteInHand, hd, hrx]
    · subst hop
      by_cases hidx : s.ctl.idx = 0#2 <;> simp [encode, bytesTaken, byteInHand, hd, hrx, hidx]
    · subst hop
      have := s.ctl.idx.isLt
      generalize hk : s.ctl.idx.toNat = k at this
      interval_cases k <;> simp [encode, bytesTaken, byteInHand, hd, hrx, hk]
  · intro hd
    rw [hop']
    simpa [opcodeInHand, hd] using hop
  · intro h1 h2 h3
    cases hd : s.ctl.disp <;> simp only [opcodeInHand, hd, Option.some.injEq] at hop
    case idle => exact (h1 hd).elim
    case dispatch => exact (h2 hd).elim
    case respond => exact (h3 hd).elim
    all_goals subst hop; rfl

/-- A step is one clock cycle of the dispatcher rule for the current `disp` (rules R25, R110). -/
theorem step_eq (s : State) :
    step s = .next (if s.now.rst then resetCycle s else clockCycle (dispRule (onChannel s) s.ctl) s) := by
  cases hi : inHand s with
  | none =>
    obtain ⟨hd, hr⟩ := inHand_eq_none_iff.mp hi
    rw [step_of_none hi, idleCycle, runCycle_eq]
    simp [dispRule, hd, idleRule, hr]
  | some i => rw [step_of_inHand hi, exec_eq, runCycle_eq, ruleOf_seen_eq hi]

theorem step_of_reset {s : State} (h : s.now.rst = true) : step s = .next (resetCycle s) := by simp [step_eq, h]

theorem step_of_running {s : State} (h : s.now.rst = false) :
    step s = .next (clockCycle (dispRule (onChannel s) s.ctl) s) := by simp [step_eq, h]

/-- What a step's next state is. -/
theorem step_next {s t : State} (h : step s = .next t) :
    (s.now.rst = true ∧ t = resetCycle s) ∨
      (s.now.rst = false ∧ t = clockCycle (dispRule (onChannel s) s.ctl) s) := by
  rw [step_eq] at h
  cases hr : s.now.rst <;> simp_all

end Sys2Proof.Machine
end

