-- ==== Sys2Proof/Laws/Run.lean ====
section
/-! SUPPORT. Runs: how the state after some cycles, the coming inputs and the arriving bytes move on with one step. -/

namespace Sys2Proof.Safety

open Sys2Proof.Machine

/-- The state after one cycle. -/
def nextState (s : State) : State :=
  if s.now.rst then resetCycle s else clockCycle (dispRule (onChannel s) s.ctl) s

theorem step_eq_nextState (s : State) : step s = .next (nextState s) := step_eq s

theorem nextState_of_running {s : State} (h : s.now.rst = false) :
    nextState s = clockCycle (dispRule (onChannel s) s.ctl) s := by simp [nextState, h]

/-! ### `After` -/

theorem after_zero {s : State} {P : State → Prop} : After 0 s P ↔ P s := by
  exact ⟨fun ⟨t, h, hp⟩ => by cases h; exact hp, fun h => ⟨s, rfl, h⟩⟩

theorem after_succ {k : Nat} {s : State} {P : State → Prop} : After (k + 1) s P ↔ After k (nextState s) P := by
  have h : Sys2Proof.core.step s = .next (nextState s) := step_eq_nextState s
  simp [After, Host.Core.run, h]

/-- A run of `j + k` cycles is a run of `j` cycles and then one of `k`. -/
theorem after_add {j k : Nat} {s : State} {P : State → Prop} :
    After (j + k) s P ↔ After j s fun u => After k u P := by
  induction j generalizing s with
  | zero => simp [after_zero]
  | succ j ih => rw [Nat.add_right_comm, after_succ, after_succ, ih]

theorem After.mono {k : Nat} {s : State} {P Q : State → Prop} (h : After k s P) (hpq : ∀ t, P t → Q t) :
    After k s Q := by
  obtain ⟨t, ht, hp⟩ := h
  exact ⟨t, ht, hpq t hp⟩

/-- A run has one end, so what two claims say of it holds of one state. -/
theorem After.and {k : Nat} {s : State} {P Q : State → Prop} (hp : After k s P) (hq : After k s Q) :
    After k s fun t => P t ∧ Q t := by
  obtain ⟨t, ht, hp⟩ := hp
  obtain ⟨u, hu, hq⟩ := hq
  rw [ht] at hu
  cases hu
  exact ⟨t, ht, hp, hq⟩

/-! ### The coming inputs -/

@[simp] theorem inputAt_zero (s : State) : inputAt s 0 = s.now := rfl

theorem nextState_now (s : State) : (nextState s).now = nextInputs s := by
  unfold nextState; split <;> rfl
theorem nextState_later (s : State) : (nextState s).later = s.later.tail := by
  unfold nextState; split <;> rfl
theorem nextState_cycle (s : State) : (nextState s).cycle = s.cycle + 1 := by
  unfold nextState; split <;> rfl

@[simp] theorem nextState_params (s : State) : (nextState s).params = s.params := by
  unfold nextState; split <;> rfl

/-- The inputs of the next cycle's future are those of this one's, one cycle later. -/
theorem inputAt_nextState (s : State) (j : Nat) : inputAt (nextState s) j = inputAt s (j + 1) := by
  have hc : s.cycle + 1 + j = s.cycle + (j + 1) := by omega
  cases hl : s.later with
  | nil => cases j <;> simp [inputAt, nextState_now, nextState_later, nextState_cycle, nextInputs, hl, hc]
  | cons a as => cases j <;> simp [inputAt, nextState_now, nextState_later, nextState_cycle, nextInputs, hl, hc]

theorem noReset_succ {k : Nat} {s : State} : NoReset (k + 1) s ↔ s.now.rst = false ∧ NoReset k (nextState s) := by
  simp only [NoReset, inputAt_nextState]
  constructor
  · exact fun h => ⟨h 0 (by omega), fun j hj => h (j + 1) (by omega)⟩
  · rintro ⟨h0, h⟩ (_ | j) hj
    · exact h0
    · exact h j (by omega)

theorem NoReset.mono {j k : Nat} {s : State} (h : NoReset k s) (hjk : j ≤ k) : NoReset j s :=
  fun i hi => h i (by omega)

theorem txReady_succ {k : Nat} {s : State} :
    TxReady (k + 1) s ↔ s.now.txWritable = true ∧ TxReady k (nextState s) := by
  simp only [TxReady, inputAt_nextState]
  constructor
  · exact fun h => ⟨h 0 (by omega), fun j hj => h (j + 1) (by omega)⟩
  · rintro ⟨h0, h⟩ (_ | j) hj
    · exact h0
    · exact h j (by omega)

theorem arrivals_zero (s : State) : arrivals s 0 = [] := rfl

theorem arrivals_succ (s : State) (k : Nat) :
    arrivals s (k + 1) = s.now.hostBytes ++ arrivals (nextState s) k := by
  simp only [arrivals, inputAt_nextState, List.range_succ_eq_map, List.flatMap_cons, List.flatMap_map, inputAt_zero]

/-! ### One cycle, by what the dispatcher's rule does -/

section
variable {s : State} {bytes : List Byte} {rule : Seen → Control → Act} {c : Control} {b : Byte}

theorem moves_of_setCtl (h : s.now.rst = false) (hr : rule (seen bytes s) s.ctl = setCtl c) :
    Moves s c (runCycle bytes rule s) := by
  rw [runCycle_of_running h, hr]
  exact ⟨_, rfl, rfl, ⟨rfl, rfl, by simp [clockCycle, envNext, setCtl]⟩, rfl, rfl, rfl, rfl, rfl⟩

theorem movesTaking_of_rxTake (h : s.now.rst = false) (hr : rule (seen bytes s) s.ctl = rxTake c) :
    MovesTaking s c (runCycle bytes rule s) := by
  rw [runCycle_of_running h, hr]
  exact ⟨_, rfl, rfl, ⟨rfl, rfl, by simp [clockCycle, envNext, rxTake]⟩, rfl, rfl, rfl, rfl, rfl⟩

theorem movesSending_of_txPut (h : s.now.rst = false) (hr : rule (seen bytes s) s.ctl = txPut b c) :
    MovesSending b s c (runCycle bytes rule s) := by
  rw [runCycle_of_running h, hr]
  exact ⟨_, rfl, rfl, ⟨rfl, rfl, by simp [clockCycle, envNext, txPut]⟩, rfl, rfl, rfl, rfl, rfl⟩

theorem step_moves_of_setCtl (h : s.now.rst = false) (hr : dispRule (onChannel s) s.ctl = setCtl c) :
    Moves s c (step s) := by
  rw [step_of_running h, hr]
  exact ⟨_, rfl, rfl, ⟨rfl, rfl, by simp [clockCycle, envNext, setCtl]⟩, rfl, rfl, rfl, rfl, rfl⟩

theorem step_movesTaking_of_rxTake (h : s.now.rst = false) (hr : dispRule (onChannel s) s.ctl = rxTake c) :
    MovesTaking s c (step s) := by
  rw [step_of_running h, hr]
  exact ⟨_, rfl, rfl, ⟨rfl, rfl, by simp [clockCycle, envNext, rxTake]⟩, rfl, rfl, rfl, rfl, rfl⟩

theorem step_movesSending_of_txPut (h : s.now.rst = false) (hr : dispRule (onChannel s) s.ctl = txPut b c) :
    MovesSending b s c (step s) := by
  rw [step_of_running h, hr]
  exact ⟨_, rfl, rfl, ⟨rfl, rfl, by simp [clockCycle, envNext, txPut]⟩, rfl, rfl, rfl, rfl, rfl⟩

end

end Sys2Proof.Safety
end

