-- ==== Sys2Proof/Tests/Slice0.lean ====
section
/-! SUPPORT. The model's own tests: the well-formedness check, the decoding of words written out from the spec's
encoding tables, one cycle of each command with results taken from the spec's examples, and for every statement with
hypotheses a state that meets them. -/

namespace Sys2Proof.Tests

open Sys2Proof.Machine Sys2Proof.Safety

/-! ### Small states -/

/-- An instance with small parameters: depths 2, dividers 1 and 0 after reset, a reset hold of 4 cycles. -/
def params : Params :=
  { outDepth := 2, inDepth := 2, tclkDivReset := 1, sclkDivReset := 0, resetHoldCycles := 4, fSys := 1 }

/-- The inputs of a cycle outside reset in which no host byte arrives. -/
def lines (tx busy rxd : Bool) : Inputs :=
  { rst := false, hostBytes := [], txWritable := tx, busyIn := busy, rxdIn := rxd }

/-- The reset state of that instance, with the transmit core ready in this cycle and the 40 after it. -/
def base : State :=
  { params := params, ctl := Control.reset params, prim := Primitives.reset, out := HostOutputs.quiet, rxChan := []
    sent := [], now := lines true false false, later := List.replicate 40 (lines true false false), cycle := 0 }

/-- `base` in the dispatcher state `d`. -/
def inState (d : Disp) : State := { base with ctl := { base.ctl with disp := d } }

/-- `base` in SEND_TRANSACTION with the engine in `e`, with the serial clock as it is there. -/
def inEngine (e : Eng) : State :=
  { base with ctl := { base.ctl with disp := .sendTransaction, eng := e, sclkR := decide (e ≠ .clockLow) } }

/-- `s` with the receive channel holding `bytes`. -/
def withBytes (bytes : List Byte) (s : State) : State := { s with rxChan := bytes }

/-- `s` with its control registers changed by `f`. -/
def withCtl (f : Control → Control) (s : State) : State := { s with ctl := f s.ctl }

/-- `s` with its primitives changed by `f`. -/
def withPrim (f : Primitives → Primitives) (s : State) : State := { s with prim := f s.prim }

/-- `s` with the transmit core accepting nothing, in this cycle and the 40 after it. -/
def stalled (s : State) : State :=
  { s with now := lines false false false, later := List.replicate 40 (lines false false false) }

/-- The outcome is a next state that meets `p`. -/
def ends (o : Host.Outcome State Fault Refusal) (p : State → Bool) : Bool :=
  match o with
  | .next t => p t
  | .fault _ => false
  | .refused _ => false

/-! ### Well-formedness (rules R72, R75) -/

/-- An opcode is refused as the byte of an unknown command, each of the ten. -/
theorem test_wellFormed_refuses_opcodes : (opcodes.all fun b => !(Instr.unknown b).wellFormed) = true := by decide

/-- The ends of the ranges of rule R75, and an argument that equals an opcode, are accepted. -/
theorem test_wellFormed_accepts :
    (([0x00, 0x51, 0x55, 0x56, 0x58, 0x65, 0x67, 0x71, 0x75, 0x78, 0xFF] : List Byte).all
      fun b => (Instr.unknown b).wellFormed) = true ∧ (Instr.stage 0x77).wellFormed = true := by decide

/-! ### Decoding: words written out bit by bit from rules R71 and R72 (first byte in the low bits) -/

theorem test_decode_v : decodeTableWord 8 0b01110110 = some .version := by decide
theorem test_decode_f : decodeTableWord 8 0b01100110 = some .flush := by decide
theorem test_decode_r : decodeTableWord 8 0b01110010 = some .resetTarget := by decide
theorem test_decode_w : decodeTableWord 16 0b01000001_01110111 = some (.stage 0x41) := by decide
theorem test_decode_W : decodeTableWord 8 0b01010111 = some .transact := by decide
theorem test_decode_R :
    decodeTableWord 40 0b00010010_00110100_01010110_01111000_01010010 = some (.readback 0x12345678) := by decide
theorem test_decode_t : decodeTableWord 8 0b01110100 = some .timerReport := by decide
theorem test_decode_T : decodeTableWord 8 0b01010100 = some .timerStatus := by decide
theorem test_decode_s : decodeTableWord 16 0b00000101_01110011 = some (.setTclk 0x05) := by decide
theorem test_decode_S : decodeTableWord 24 0b00000001_00010000_01010011 = some (.setSclk 0x0110) := by decide
theorem test_decode_unknown : decodeTableWord 8 0b01111000 = some (.unknown 0x78) := by decide

/-- Letters are case-sensitive and all eight bits count (rule R72): `0xF6` is not `v`, `0x56` is not `v`. -/
theorem test_decode_all_bits :
    decodeTableWord 8 0xF6 = some (.unknown 0xF6) ∧ decodeTableWord 8 0x56 = some (.unknown 0x56) := by decide

/-- A command with too few bytes is refused by name; the superseded one-byte `R` is not accepted (rule R79). -/
theorem test_decode_short :
    decode [0x52] = .error (.missingArguments 0x52 4 0) ∧ decode [] = .error .noCommandByte := ⟨rfl, rfl⟩

/-! ### One cycle of each command, with the spec's own examples -/

/-- Rule R130: `v` gives `0x30`. -/
theorem test_version : ends (exec .version (inState .respondVersion))
    (fun t => t.ctl.resp == 0x30 && t.ctl.disp == .respond) = true := by decide

/-- Rule R118: `0x78` gives `0x3F`. -/
theorem test_unknown : ends (exec (.unknown 0x78) (withCtl ({ · with cmd := 0x78 }) (inState .dispatch)))
    (fun t => t.ctl.resp == 0x3F && t.ctl.disp == .respond) = true := by decide

/-- Rule R131: with `count = 0x12345678` the first byte is `0x78`. -/
theorem test_timerReport_first :
    ends (exec .timerReport (withCtl ({ · with snap := 0x12345678 }) (inState .timerReport)))
      (fun t => t.sent == [0x78] && t.ctl.idx == 1) = true := by decide

/-- Rule R131: the last byte is `0x12`, and no acknowledgement follows. -/
theorem test_timerReport_last :
    ends (exec .timerReport (withCtl ({ · with snap := 0x12345678, idx := 3 }) (inState .timerReport)))
      (fun t => t.sent == [0x12] && t.ctl.disp == .idle) = true := by decide

/-- Rule R132: stopped gives `0x73`. -/
theorem test_timerStatus_stopped : ends (exec .timerStatus (inState .timerStatus))
    (fun t => t.ctl.resp == 0x73) = true := by decide

/-- Rule R132: running gives `0x72`. -/
theorem test_timerStatus_running :
    ends (exec .timerStatus (withPrim ({ · with running := true }) (inState .timerStatus)))
      (fun t => t.ctl.resp == 0x72) = true := by decide

/-- Rule R140, its example: the first of the three FLUSH cycles. -/
theorem test_flush_first :
    ends (exec .flush (withCtl ({ · with fifoOut := [0x01, 0x02], fifoIn := [0x99] }) (inState .flush)))
      (fun t => t.ctl.fifoOut == [0x02] && t.ctl.fifoIn == [] && t.ctl.disp == .flush && t.sent == []) = true := by
  decide

/-- Rule R140: the last FLUSH cycle. -/
theorem test_flush_last : ends (exec .flush (inState .flush))
    (fun t => t.ctl.disp == .respond && t.ctl.resp == 0x2E) = true := by decide

/-- Rule R141, its example: `w 0x41` on an empty `OUT`. -/
theorem test_stage_stores : ends (exec (.stage 0x41) (withBytes [0x41] (inState .fifoWrite)))
    (fun t => t.ctl.fifoOut == [0x41] && t.ctl.resp == 0x2E && t.rxChan == []) = true := by decide

/-- Rule R141: a full `OUT` drops the byte. -/
theorem test_stage_full :
    ends (exec (.stage 0x41) (withCtl ({ · with fifoOut := [1, 2] }) (withBytes [0x41] (inState .fifoWrite))))
      (fun t => t.ctl.fifoOut == [1, 2] && t.ctl.resp == 0x21 && t.rxChan == []) = true := by decide

/-- Rule R142, its example: `IN = [0x10]` and 3 bytes to stream. -/
theorem test_readback_stored :
    ends (exec (.readback 3)
        (withCtl ({ · with phase := .stream, remaining := 3, fifoIn := [0x10] }) (inState .fifoReadback)))
      (fun t => t.sent == [0x10] && t.ctl.fifoIn == [] && t.ctl.remaining == 2) = true := by decide

/-- Rule R142: the count is little-endian, its last byte the most significant. -/
theorem test_readback_count :
    ends (exec (.readback 0x80000102)
        (withCtl ({ · with idx := 3, arg := 0x000102 }) (withBytes [0x80] (inState .fifoReadback))))
      (fun t => t.ctl.remaining == 0x80000102 && t.ctl.phase == .stream) = true := by decide

/-- Rule R170: DISPATCH asserts the reset with a hold count of `RESET_HOLD_CYCLES - 1`. -/
theorem test_resetTarget_asserts :
    ends (exec .resetTarget (withCtl ({ · with cmd := 0x72 }) (inState .dispatch)))
      (fun t => t.ctl.trstR && t.ctl.rstCtr == ⟨2, 3⟩ && t.ctl.disp == .resetTarget) = true := by decide

/-- Rule R33: one bit for holds of 1 and 2 cycles, two bits for 3 and 4, three for 5. -/
theorem test_holdWidth :
    ([1, 2, 3, 4, 5].map fun n => holdWidth { params with resetHoldCycles := n }) = [1, 1, 2, 2, 3] := by decide

/-- Rule R170: the last hold cycle releases it. -/
theorem test_resetTarget_releases : ends (exec .resetTarget (withCtl ({ · with trstR := true }) (inState .resetTarget)))
    (fun t => !t.ctl.trstR && t.ctl.sclkR && t.ctl.resp == 0x2E) = true := by decide

/-- Rule R171, its example. -/
theorem test_setTclk : ends (exec (.setTclk 0x05) (withBytes [0x05] (inState .setTclk)))
    (fun t => t.ctl.tclkDiv == 0x05 && t.ctl.resp == 0x2E) = true := by decide

/-- Rule R172: the low byte alone changes no divider. -/
theorem test_setSclk_low : ends (exec (.setSclk 0x0110) (withBytes [0x10, 0x01] (inState .setSclk)))
    (fun t => t.ctl.sclkDiv == 0 && t.ctl.arg == 0x000010 && t.ctl.idx == 1) = true := by decide

/-- Rule R172: the high byte writes the divider `{hi, lo}`. -/
theorem test_setSclk_high :
    ends (exec (.setSclk 0x0110) (withCtl ({ · with idx := 1, arg := 0x000010 }) (withBytes [0x01] (inState .setSclk))))
      (fun t => t.ctl.sclkDiv == 0x0110 && t.ctl.disp == .respond) = true := by decide

/-- Rule R152: PREPARE takes the oldest byte. -/
theorem test_transact_prepare :
    ends (exec .transact (withCtl ({ · with fifoOut := [0x41, 0x42] }) (inEngine .prepare)))
      (fun t => t.ctl.tx == 0x41 && t.ctl.fifoOut == [0x42] && t.ctl.eng == .waitNotBusy) = true := by decide

/-- Rule R155: a sample enters at bit 7 and bit 1 of the byte follows bit 0 on the line (`0x42 = 0100_0010`). -/
theorem test_transact_sample :
    ends (exec .transact
        (withPrim ({ · with rxdR := true }) (withCtl ({ · with tx := 0x42, sr := 0x82 }) (inEngine .clockHigh))))
      (fun t => t.ctl.sr == 0xC1 && t.ctl.bit == 1 && t.ctl.txdR && !t.ctl.sclkR) = true := by decide

/-! ### The parts that run in every cycle -/

/-- Rule R96: the count wraps. -/
theorem test_timer_wraps :
    ends (step (withPrim ({ · with busyR := true, busyP := true, running := true, count := 0xFFFFFFFF }) base))
      (fun t => t.prim.count == 0 && t.prim.running) = true := by decide

/-- Rule R100: a divider lowered below its counter ticks in the next cycle. -/
theorem test_lowered_divider_ticks : ends (step (withPrim ({ · with tclkCtr := 0xFF }) base))
    (fun t => t.prim.tclkCtr == 0 && t.prim.tclkR) = true := by decide

/-- Rule R25: reset wins over a full channel and a running command, and the channel keeps its bytes. -/
theorem test_reset_input :
    ends (step { withBytes [0x76] (inEngine .clockLow) with now := { lines true true true with rst := true } })
      (fun t => t.ctl == Control.reset params && t.prim == Primitives.reset && t.rxChan == [0x76]) = true := by decide

/-- The word placed by `withFetchWord` is the first command after reset. -/
theorem test_first_word : ends (step (State.reset.withFetchWord 8 0x76))
    (fun t => t.ctl.cmd == 0x76 && t.ctl.disp == .dispatch) = true := by decide

/-! ### States that meet the hypotheses of the statements

One theorem per statement with hypotheses, one conjunct per clause, at a boundary value where the clause has a range. -/

/-- The states a statement about one cycle outside reset speaks of, and the one a reset cycle starts from. -/
theorem witness_ResetInputOverridesEveryRule : ∃ s : State, s.now.rst = true ∧ s.ctl.disp = .sendTransaction :=
  ⟨{ inEngine .writeback with now := { lines true true true with rst := true } }, by decide⟩

theorem witness_OpcodeMapIsDecodedByAllEightBits :
    (0x75 : Byte) ∉ ([0x76, 0x66, 0x72, 0x77, 0x57, 0x52, 0x74, 0x54, 0x73, 0x53] : List Byte) ∧
    (0xFF : Byte) ∉ ([0x76, 0x66, 0x72, 0x77, 0x57, 0x52, 0x74, 0x54, 0x73, 0x53] : List Byte) := by decide

theorem witness_DecodeInvertsEncode :
    (Instr.readback 0xFFFFFFFF).wellFormed = true ∧ (Instr.unknown 0x00).wellFormed = true := by decide

theorem witness_EncodeInvertsDecode :
    decode [0x52, 1, 2, 3, 4, 0x76] = .ok (.readback 0x04030201, [0x76]) ∧ decode [0x00] = .ok (.unknown 0x00, []) :=
  ⟨rfl, rfl⟩

/-- One byte short of the length, and exactly the length, for a command of five bytes and for one of one byte. -/
theorem witness_LengthIsFixedByTheFirstByte :
    ([1, 2, 3] : List Byte).length + 1 < 5 ∧ 5 ≤ ([1, 2, 3, 4] : List Byte).length + 1 ∧
    1 ≤ ([] : List Byte).length + 1 := by decide

/-- A command whose bytes all stand in the channel, and one whose last byte does. -/
theorem witness_StepRunsTheDecodedCommand :
    (∃ (s : State) (i : Instr) (rest : List Byte), s.ctl.disp ≠ .respond ∧
      decode (takenBytes s.ctl ++ s.rxChan) = .ok (i, rest)) ∧
    (∃ (s : State) (i : Instr) (rest : List Byte), s.ctl.disp = .fifoReadback ∧ s.ctl.idx = 3 ∧
      decode (takenBytes s.ctl ++ s.rxChan) = .ok (i, rest)) :=
  ⟨⟨withBytes [0x77, 0x41] base, .stage 0x41, [], by decide, rfl⟩,
    ⟨withCtl ({ · with idx := 3 }) (withBytes [9] (inState .fifoReadback)), .readback 0x09000000, [], by decide,
      by decide, rfl⟩⟩

theorem witness_StepNeedsNoByteThatHasNotArrived :
    (∃ (s : State) (i : Instr), i.wellFormed = true ∧ s.rxChan = [] ∧ takenBytes s.ctl ++ s.rxChan <+: encode i) ∧
    (∃ (s : State) (i : Instr), i.wellFormed = true ∧ encode i <+: takenBytes s.ctl ++ s.rxChan) ∧
    (∃ (s : State) (i : Instr), i.wellFormed = true ∧ s.ctl.disp = .respond ∧ opcodeOf i = s.ctl.cmd) :=
  ⟨⟨inState .setSclk, .setSclk 7, by decide⟩, ⟨withBytes [0x76, 0x66] base, .version, by decide⟩,
    ⟨withCtl ({ · with cmd := 0x77 }) (inState .respond), .stage 5, by decide⟩⟩

theorem witness_InputRegistersAloneReadTheLines : ∃ s : State, s.now.rst = false ∧ s.now.busyIn = true :=
  ⟨{ base with now := lines true true true }, by decide⟩

theorem witness_BusyTimerArmsFreezesAndAdvances :
    (∃ s : State, s.now.rst = false ∧ s.prim.busyR = true ∧ s.prim.busyP = false ∧ s.prim.running = false) ∧
    (∃ s : State, s.now.rst = false ∧ s.prim.busyP = true ∧ s.prim.busyR = false) ∧
    (∃ s : State, s.now.rst = false ∧ s.prim.busyP = true ∧ s.prim.busyR = true ∧ s.prim.running = true ∧
      s.prim.count = 0xFFFFFFFF) ∧
    (∃ s : State, s.now.rst = false ∧ s.prim.busyP = false ∧ s.prim.busyR = false ∧ s.prim.running = false) :=
  ⟨⟨withPrim ({ · with busyR := true }) base, by decide⟩,
    ⟨withPrim ({ · with busyP := true, running := true }) base, by decide⟩,
    ⟨withPrim ({ · with busyR := true, busyP := true, running := true, count := 0xFFFFFFFF }) base, by decide⟩,
    ⟨base, by decide⟩⟩

/-- At the value, one below it, and above it. -/
theorem witness_DividersTickAtTheirValue :
    (∃ s : State, s.now.rst = false ∧ s.ctl.tclkDiv.toNat = s.prim.tclkCtr.toNat) ∧
    (∃ s : State, s.now.rst = false ∧ s.ctl.tclkDiv.toNat = s.prim.tclkCtr.toNat + 1) ∧
    (∃ s : State, s.now.rst = false ∧ s.ctl.sclkDiv.toNat < s.prim.sclkCtr.toNat) :=
  ⟨⟨withPrim ({ · with tclkCtr := 1 }) base, by decide⟩, ⟨base, by decide⟩,
    ⟨withPrim ({ · with sclkCtr := 0xFFFF }) base, by decide⟩⟩

theorem witness_PrimitivesIgnoreTheDispatcher :
    ∃ s u s' u' : State, s.now.rst = false ∧ u.now.rst = false ∧ u.now.busyIn = s.now.busyIn ∧
      u.now.rxdIn = s.now.rxdIn ∧ u.now.hostBytes ≠ s.now.hostBytes ∧ u.now.txWritable ≠ s.now.txWritable ∧ u.prim = s.prim ∧ u.ctl.tclkDiv = s.ctl.tclkDiv ∧
      u.ctl.sclkDiv = s.ctl.sclkDiv ∧ u.ctl.disp ≠ s.ctl.disp ∧ step s = .next s' ∧ step u = .next u' :=
  ⟨base, { inEngine .writeback with now := { lines false false false with hostBytes := [0x76] } }, _, _, by decide,
    by decide, by decide, by decide, by decide, by decide, by decide, by decide, by decide, by decide, rfl, rfl⟩

/-- The divider value 1, which `base` has. -/
theorem witness_TargetClockTogglesOncePerPeriod :
    ∃ s : State, s.prim.tclkCtr = 0 ∧ s.ctl.tclkDiv.toNat = 1 ∧ NoReset (s.ctl.tclkDiv.toNat + 1) s ∧
      ∀ j ≤ s.ctl.tclkDiv.toNat, After j s fun u => u.ctl.tclkDiv = s.ctl.tclkDiv := by
  refine ⟨base, by decide, by decide, by unfold NoReset; decide, fun j hj => ?_⟩
  have hd : base.ctl.tclkDiv.toNat = 1 := by decide
  obtain rfl | rfl : j = 0 ∨ j = 1 := by omega
  · exact ⟨_, rfl, by decide⟩
  · exact ⟨_, rfl, by decide⟩

/-- A pulse of one cycle and one of two. -/
theorem witness_PulseOfLCyclesCountsLessOne :
    (∃ s : State, s.prim.busyR = true ∧ s.prim.busyP = false ∧ s.prim.running = false ∧ NoReset 2 s ∧
      (inputAt s 0).busyIn = false) ∧
    (∃ s : State, s.prim.busyR = true ∧ s.prim.busyP = false ∧ s.prim.running = false ∧ NoReset 3 s ∧
      (∀ j, j + 1 < 2 → (inputAt s j).busyIn = true) ∧ (inputAt s 1).busyIn = false) :=
  ⟨⟨withPrim ({ · with busyR := true }) base, by decide, by decide, by decide, by unfold NoReset; decide, by decide⟩,
    ⟨withPrim ({ · with busyR := true }) { base with now := lines true true false }, by decide, by decide, by decide,
      by unfold NoReset; decide, fun
        | 0, _ => rfl
        | j + 1, hj => absurd hj (by omega), by decide⟩⟩

theorem witness_IdleTakesOneCommandByte :
    (∃ (s : State) (b : Byte) (rest : List Byte), s.now.rst = false ∧ s.ctl.disp = .idle ∧ s.rxChan = b :: rest) ∧
    (∃ s : State, s.now.rst = false ∧ s.ctl.disp = .idle ∧ s.rxChan = []) :=
  ⟨⟨withBytes [0x76] base, 0x76, [], by decide⟩, ⟨base, by decide⟩⟩

/-- Each of the ten opcodes, and an unknown byte. -/
theorem witness_DispatchSelectsTheBranch :
    ∀ b ∈ opcodes ++ [0x00], ∃ s : State, s.now.rst = false ∧ s.ctl.disp = .dispatch ∧ s.ctl.cmd = b :=
  fun b _ => ⟨withCtl ({ · with cmd := b }) (inState .dispatch), rfl, rfl, rfl⟩

theorem witness_RespondSendsTheReply :
    (∃ s : State, s.now.rst = false ∧ s.ctl.disp = .respond ∧ s.now.txWritable = true) ∧
    (∃ s : State, s.now.rst = false ∧ s.ctl.disp = .respond ∧ s.now.txWritable = false) ∧
    (∃ s : State, s.now.rst = false ∧ s.ctl.disp = .timerReport) ∧
    (∃ s : State, s.now.rst = false ∧ s.ctl.disp = .setSclk) ∧
    (∃ s : State, s.now.rst = false ∧ s.ctl.disp = .dispatch ∧ s.ctl.cmd ∉ opcodes) :=
  ⟨⟨inState .respond, by decide⟩, ⟨stalled (inState .respond), by decide⟩, ⟨inState .timerReport, by decide⟩,
    ⟨inState .setSclk, by decide⟩, ⟨inState .dispatch, by decide⟩⟩

theorem witness_EveryCommandFollowsItsPath :
    (∃ s t : State, s.now.rst = false ∧ step s = .next t ∧ s.ctl.disp = .idle ∧ t.ctl.disp ≠ s.ctl.disp) ∧
    (∃ s t : State, s.now.rst = false ∧ step s = .next t ∧ s.ctl.disp = .dispatch ∧ t.ctl.disp ≠ s.ctl.disp) ∧
    (∃ s t : State, s.now.rst = false ∧ step s = .next t ∧ s.ctl.disp = .flush ∧ t.ctl.disp ≠ s.ctl.disp) ∧
    (∃ s t : State, s.now.rst = false ∧ step s = .next t ∧ s.ctl.disp = .respond ∧ t.ctl.disp ≠ s.ctl.disp) :=
  ⟨⟨withBytes [0x76] base, _, by decide, rfl, by decide, by decide⟩,
    ⟨inState .dispatch, _, by decide, rfl, by decide, by decide⟩,
    ⟨inState .flush, _, by decide, rfl, by decide, by decide⟩,
    ⟨inState .respond, _, by decide, rfl, by decide, by decide⟩⟩

/-- Each wait with no byte and with one; FIFO_WRITE with `OUT` full and one below; each argument index of `R`. -/
theorem witness_ArgumentWaitsTakeThePresentedByte :
    (∀ d ∈ [Disp.fifoWrite, .setTclk, .setSclk, .fifoReadback], ∀ bytes ∈ [[], [(0xFF : Byte)]],
      ∃ s : State, s.now.rst = false ∧ s.ctl.disp = d ∧ s.ctl.phase = .arg ∧ s.rxChan = bytes) ∧
    (∀ n ∈ [1, 2], ∃ s : State, s.now.rst = false ∧ s.ctl.disp = .fifoWrite ∧ s.rxChan = [0x00] ∧
      s.ctl.fifoOut.length = n ∧ s.params.outDepth = 2) ∧
    (∀ k : BitVec 2, ∃ s : State, s.now.rst = false ∧ s.ctl.disp = .fifoReadback ∧ s.ctl.phase = .arg ∧
      s.ctl.idx = k ∧ s.rxChan = [0x00]) :=
  ⟨fun d _ bytes _ => ⟨withBytes bytes (inState d), rfl, rfl, rfl, rfl⟩,
    fun n _ => ⟨withCtl ({ · with fifoOut := List.replicate n 0 }) (withBytes [0x00] (inState .fifoWrite)), rfl, rfl,
      rfl, by simp [withCtl], rfl⟩,
    fun k => ⟨withCtl ({ · with idx := k }) (withBytes [0x00] (inState .fifoReadback)), rfl, rfl, rfl, rfl, rfl⟩⟩

/-- The send waits, stalled and not; the last byte of `t`; the last byte of `R` with `IN` empty and not. -/
theorem witness_SendWaitsSendExactlyOneByte :
    (∃ s : State, s.now.rst = false ∧ s.ctl.disp = .timerReport ∧ s.now.txWritable = false) ∧
    (∃ s : State, s.now.rst = false ∧ s.ctl.disp = .fifoReadback ∧ s.ctl.phase = .stream ∧ s.ctl.remaining = 1 ∧
      s.now.txWritable = false) ∧
    (∃ s : State, s.now.rst = false ∧ s.now.txWritable = true ∧ s.ctl.disp = .timerReport ∧ s.ctl.idx = 3) ∧
    (∃ s : State, s.now.rst = false ∧ s.now.txWritable = true ∧ s.ctl.disp = .fifoReadback ∧ s.ctl.phase = .stream ∧
      s.ctl.remaining = 1 ∧ s.ctl.fifoIn = [0xFF]) ∧
    (∃ s : State, s.now.rst = false ∧ s.now.txWritable = true ∧ s.ctl.disp = .fifoReadback ∧ s.ctl.phase = .stream ∧
      s.ctl.remaining = 0xFFFFFFFF ∧ s.ctl.fifoIn = []) :=
  ⟨⟨stalled (inState .timerReport), by decide⟩,
    ⟨stalled (withCtl ({ · with phase := .stream, remaining := 1 }) (inState .fifoReadback)), by decide⟩,
    ⟨withCtl ({ · with idx := 3 }) (inState .timerReport), by decide⟩,
    ⟨withCtl ({ · with phase := .stream, remaining := 1, fifoIn := [0xFF] }) (inState .fifoReadback), by decide⟩,
    ⟨withCtl ({ · with phase := .stream, remaining := 0xFFFFFFFF }) (inState .fifoReadback), by decide⟩⟩

theorem witness_ChannelsAreInOrderAndLossless :
    (∃ s t : State, step s = .next t ∧ t.out.rxAck = true) ∧ (∃ s t : State, step s = .next t ∧ t.out.txWe = true) ∧
    (∃ s t : State, step s = .next t ∧ t.out.rxAck = false ∧ t.out.txWe = false) :=
  ⟨⟨withBytes [0x76] base, _, rfl, by decide⟩, ⟨inState .respond, _, rfl, by decide⟩, ⟨base, _, rfl, by decide⟩⟩

theorem witness_HostBytesAreTakenOnlyWhereTheyAreAwaited :
    ∃ s t : State, step s = .next t ∧ t.out.rxAck = true ∧ s.ctl.disp = .setTclk :=
  ⟨withBytes [0x76] (inState .setTclk), _, rfl, by decide⟩

theorem witness_EveryCommandIsTakenAndAnswered :
    (∃ s : State, s.now.rst = false ∧ s.ctl.disp = .idle ∧ s.rxChan ≠ []) ∧
    (∃ s : State, s.now.rst = false ∧ s.ctl.disp = .idle ∧ s.rxChan = []) ∧
    (∃ s : State, s.now.rst = false ∧ s.ctl.disp = .respond ∧ s.now.txWritable = true) ∧
    (∃ s : State, s.now.rst = false ∧ s.ctl.disp = .respond ∧ s.now.txWritable = false) :=
  ⟨⟨withBytes [0x76] base, by decide⟩, ⟨base, by decide⟩, ⟨inState .respond, by decide⟩,
    ⟨stalled (inState .respond), by decide⟩⟩

theorem witness_UnknownCommandAnswersQuestionMark : ∃ s : State, s.now.rst = false ∧ s.ctl.disp = .dispatch :=
  ⟨inState .dispatch, by decide⟩

theorem witness_VersionAnswersZeroCharacter :
    (∃ s : State, s.now.rst = false ∧ s.ctl.disp = .dispatch) ∧
    (∃ s : State, s.now.rst = false ∧ s.ctl.disp = .respondVersion) :=
  ⟨⟨inState .dispatch, by decide⟩, ⟨inState .respondVersion, by decide⟩⟩

theorem witness_TimerReportSendsTheLatchedCount :
    (∃ s : State, s.now.rst = false ∧ s.ctl.disp = .dispatch ∧ s.prim.count = 0xFFFFFFFF) ∧
    (∃ s : State, s.now.rst = false ∧ s.ctl.disp = .timerReport ∧ s.now.txWritable = true ∧ s.ctl.idx = 3) ∧
    (∃ s : State, s.now.rst = false ∧ s.ctl.disp = .timerReport ∧ s.now.txWritable = true ∧ s.ctl.idx = 2) ∧
    (∃ s : State, s.now.rst = false ∧ s.ctl.disp = .timerReport ∧ s.now.txWritable = false) :=
  ⟨⟨withPrim ({ · with count := 0xFFFFFFFF }) (inState .dispatch), by decide⟩,
    ⟨withCtl ({ · with idx := 3 }) (inState .timerReport), by decide⟩,
    ⟨withCtl ({ · with idx := 2 }) (inState .timerReport), by decide⟩,
    ⟨stalled (inState .timerReport), by decide⟩⟩

theorem witness_TimerStatusReportsTheRunningFlag :
    (∃ s : State, s.now.rst = false ∧ s.ctl.disp = .dispatch) ∧
    (∃ s : State, s.now.rst = false ∧ s.ctl.disp = .timerStatus ∧ s.prim.running = true) ∧
    (∃ s : State, s.now.rst = false ∧ s.ctl.disp = .timerStatus ∧ s.prim.running = false) :=
  ⟨⟨inState .dispatch, by decide⟩, ⟨withPrim ({ · with running := true }) (inState .timerStatus), by decide⟩,
    ⟨inState .timerStatus, by decide⟩⟩

theorem witness_FlushDiscardsOneByteOfEachFifo :
    (∃ s : State, s.now.rst = false ∧ s.ctl.disp = .dispatch) ∧
    (∃ s : State, s.now.rst = false ∧ s.ctl.disp = .flush ∧ s.ctl.fifoOut = [] ∧ s.ctl.fifoIn = []) ∧
    (∃ s : State, s.now.rst = false ∧ s.ctl.disp = .flush ∧ s.ctl.fifoOut ≠ [] ∧ s.ctl.fifoIn = []) ∧
    (∃ s : State, s.now.rst = false ∧ s.ctl.disp = .flush ∧ s.ctl.fifoOut = [] ∧ s.ctl.fifoIn ≠ []) :=
  ⟨⟨inState .dispatch, by decide⟩, ⟨inState .flush, by decide⟩,
    ⟨withCtl ({ · with fifoOut := [1] }) (inState .flush), by decide⟩,
    ⟨withCtl ({ · with fifoIn := [1] }) (inState .flush), by decide⟩⟩

/-- `OUT` with one place left, and full. -/
theorem witness_StageStoresOrReportsFull :
    (∃ s : State, s.now.rst = false ∧ s.ctl.disp = .dispatch) ∧
    (∃ s : State, s.now.rst = false ∧ s.ctl.disp = .fifoWrite ∧ s.rxChan ≠ [] ∧
      s.ctl.fifoOut.length + 1 = s.params.outDepth) ∧
    (∃ s : State, s.now.rst = false ∧ s.ctl.disp = .fifoWrite ∧ s.rxChan ≠ [] ∧
      s.ctl.fifoOut.length = s.params.outDepth) ∧
    (∃ s : State, s.now.rst = false ∧ s.ctl.disp = .fifoWrite ∧ s.rxChan = []) :=
  ⟨⟨inState .dispatch, by decide⟩,
    ⟨withCtl ({ · with fifoOut := [1] }) (withBytes [0x41] (inState .fifoWrite)), by decide⟩,
    ⟨withCtl ({ · with fifoOut := [1, 2] }) (withBytes [0x41] (inState .fifoWrite)), by decide⟩,
    ⟨inState .fifoWrite, by decide⟩⟩

theorem witness_ReadbackCollectsItsCountAndStreams :
    (∃ s : State, s.now.rst = false ∧ s.ctl.disp = .dispatch) ∧
    (∀ k : BitVec 2, ∃ s : State, s.now.rst = false ∧ s.ctl.disp = .fifoReadback ∧ s.ctl.phase = .arg ∧
      s.ctl.idx = k ∧ s.rxChan ≠ []) ∧
    (∃ s : State, s.now.rst = false ∧ s.ctl.disp = .fifoReadback ∧ s.ctl.phase = .arg ∧ s.rxChan = []) ∧
    (∃ s : State, s.now.rst = false ∧ s.ctl.disp = .fifoReadback ∧ s.ctl.phase = .stream ∧ s.ctl.remaining = 0) ∧
    (∃ s : State, s.now.rst = false ∧ s.ctl.disp = .fifoReadback ∧ s.ctl.phase = .stream ∧ s.ctl.remaining = 1 ∧
      s.now.txWritable = true) ∧
    (∃ s : State, s.now.rst = false ∧ s.ctl.disp = .fifoReadback ∧ s.ctl.phase = .stream ∧ s.ctl.remaining = 1 ∧
      s.now.txWritable = false) :=
  ⟨⟨inState .dispatch, by decide⟩,
    fun k => ⟨withCtl ({ · with idx := k }) (withBytes [0x00] (inState .fifoReadback)), rfl, rfl, rfl, rfl, nofun⟩,
    ⟨inState .fifoReadback, by decide⟩, ⟨withCtl ({ · with phase := .stream }) (inState .fifoReadback), by decide⟩,
    ⟨withCtl ({ · with phase := .stream, remaining := 1 }) (inState .fifoReadback), by decide⟩,
    ⟨stalled (withCtl ({ · with phase := .stream, remaining := 1 }) (inState .fifoReadback)), by decide⟩⟩

theorem witness_ResetTargetHoldsThenReleases :
    (∃ s : State, s.now.rst = false ∧ s.ctl.disp = .dispatch ∧ s.params.resetHoldCycles = 1) ∧
    (∃ s : State, s.now.rst = false ∧ s.ctl.disp = .resetTarget ∧ s.ctl.rstCtr.value = 0) ∧
    (∃ s : State, s.now.rst = false ∧ s.ctl.disp = .resetTarget ∧ s.ctl.rstCtr.value.toNat = 1) :=
  ⟨⟨{ inState .dispatch with params := { params with resetHoldCycles := 1 } }, by decide⟩,
    ⟨inState .resetTarget, by decide⟩, ⟨withCtl ({ · with rstCtr := ⟨2, 1⟩ }) (inState .resetTarget), by decide⟩⟩

theorem witness_SetTclkStoresTheDivider :
    (∃ s : State, s.now.rst = false ∧ s.ctl.disp = .dispatch) ∧
    (∃ s : State, s.now.rst = false ∧ s.ctl.disp = .setTclk ∧ s.rxChan ≠ []) ∧
    (∃ s : State, s.now.rst = false ∧ s.ctl.disp = .setTclk ∧ s.rxChan = []) :=
  ⟨⟨inState .dispatch, by decide⟩, ⟨withBytes [0xFF] (inState .setTclk), by decide⟩, ⟨inState .setTclk, by decide⟩⟩

theorem witness_SetSclkStoresTheDividerAtOnce :
    (∃ s : State, s.now.rst = false ∧ s.ctl.disp = .dispatch) ∧
    (∃ s : State, s.now.rst = false ∧ s.ctl.disp = .setSclk ∧ s.ctl.idx = 0 ∧ s.rxChan ≠ []) ∧
    (∃ s : State, s.now.rst = false ∧ s.ctl.disp = .setSclk ∧ s.ctl.idx = 1 ∧ s.rxChan ≠ []) ∧
    (∃ s : State, s.now.rst = false ∧ s.ctl.disp = .setSclk ∧ s.rxChan = []) :=
  ⟨⟨inState .dispatch, by decide⟩, ⟨withBytes [0xFF] (inState .setSclk), by decide⟩,
    ⟨withCtl ({ · with idx := 1 }) (withBytes [0xFF] (inState .setSclk)), by decide⟩, ⟨inState .setSclk, by decide⟩⟩

/-- A state of the invariant in CLOCK_LOW; every sub-state, with the divider at its value and one below, with `IN` full
and one below. -/
theorem witness_TransactRunsTheEngineRule :
    (∃ s : State, BlockInv s ∧ s.ctl.eng = .clockLow) ∧
    (∃ s : State, s.now.rst = false ∧ s.ctl.disp = .dispatch) ∧
    (∀ e ∈ [Eng.start, .prepare, .waitNotBusy, .clockLow, .writeback], ∀ out ∈ [[], [(0x41 : Byte)]],
      ∀ c ∈ [0, (1 : Word16)], ∀ f ∈ [[(0 : Byte)], [0, 0]], ∀ busy : Bool,
      ∃ s : State, s.now.rst = false ∧ s.ctl.disp = .sendTransaction ∧ s.ctl.eng = e ∧ s.ctl.fifoOut = out ∧
        s.ctl.sclkDiv = 1 ∧ s.prim.sclkCtr = c ∧ s.ctl.fifoIn = f ∧ s.params.inDepth = 2 ∧ s.prim.busyR = busy) :=
  ⟨⟨withCtl ({ · with cmd := 0x57, txdR := false }) (inEngine .clockLow), by unfold BlockInv ControlInv; decide⟩,
    ⟨inState .dispatch, by decide⟩,
    fun e _ out _ c _ f _ busy =>
      ⟨withPrim ({ · with sclkCtr := c, busyR := busy })
        (withCtl ({ · with sclkDiv := 1, fifoOut := out, fifoIn := f }) (inEngine e)),
        rfl, rfl, rfl, rfl, rfl, rfl, rfl, rfl, rfl⟩⟩

/-- A state of the invariant; on a tick at the last bit and before it, and off a tick. -/
theorem witness_ClockHighSamplesLeastSignificantBitFirst :
    (∃ s : State, BlockInv s ∧ s.ctl.eng = .clockHigh) ∧
    (∃ s : State, s.now.rst = false ∧ s.ctl.disp = .sendTransaction ∧ s.ctl.eng = .clockHigh ∧ s.ctl.bit = 7 ∧
      s.ctl.sclkDiv.toNat = s.prim.sclkCtr.toNat) ∧
    (∃ s : State, s.now.rst = false ∧ s.ctl.disp = .sendTransaction ∧ s.ctl.eng = .clockHigh ∧ s.ctl.bit = 6 ∧
      s.ctl.sclkDiv.toNat = s.prim.sclkCtr.toNat) ∧
    (∃ s : State, s.now.rst = false ∧ s.ctl.disp = .sendTransaction ∧ s.ctl.eng = .clockHigh ∧
      s.prim.sclkCtr.toNat + 1 = s.ctl.sclkDiv.toNat) :=
  ⟨⟨withCtl ({ · with cmd := 0x57, txdR := false }) (inEngine .clockHigh), by unfold BlockInv ControlInv; decide⟩,
    ⟨withCtl ({ · with bit := 7 }) (inEngine .clockHigh), by decide⟩,
    ⟨withCtl ({ · with bit := 6 }) (inEngine .clockHigh), by decide⟩,
    ⟨withCtl ({ · with sclkDiv := 1 }) (inEngine .clockHigh), by decide⟩⟩

/-! ### Runs -/

theorem witness_VersionCompletesInFourCycles :
    ∃ (s : State) (rest : List Byte), s.ctl.disp = .idle ∧ s.rxChan = 0x76 :: rest ∧ NoReset 4 s ∧
      (inputAt s 3).txWritable = true :=
  ⟨withBytes [0x76] base, [], by decide, by decide, by unfold NoReset; decide, by decide⟩

theorem witness_UnknownCompletesInThreeCycles :
    ∃ (s : State) (b : Byte) (rest : List Byte), b ∉ opcodes ∧ s.ctl.disp = .idle ∧ s.rxChan = b :: rest ∧
      NoReset 3 s ∧ (inputAt s 2).txWritable = true :=
  ⟨withBytes [0xFF] base, 0xFF, [], by decide, by decide, by decide, by unfold NoReset; decide, by decide⟩

/-- With the busy line low and high in the cycle that takes the byte. -/
theorem witness_TimerStatusTellsTheBusyLineOfTwoCyclesBefore :
    ∀ busy : Bool, ∃ (s : State) (rest : List Byte), s.ctl.disp = .idle ∧ s.rxChan = 0x54 :: rest ∧
      s.prim.running = s.prim.busyP ∧ NoReset 4 s ∧ (inputAt s 3).txWritable = true ∧ s.now.busyIn = busy :=
  fun busy => ⟨withBytes [0x54] { base with now := lines true busy false }, [], rfl, rfl, rfl,
    by unfold NoReset; cases busy <;> decide, by cases busy <;> decide, rfl⟩

theorem witness_TimerReportSendsOneConsistentCount :
    ∃ (s : State) (rest : List Byte), s.ctl.disp = .idle ∧ s.rxChan = 0x74 :: rest ∧ NoReset 6 s ∧
      ∀ j, 2 ≤ j → j < 6 → (inputAt s j).txWritable = true := by
  refine ⟨withBytes [0x74] base, [], by decide, by decide, by unfold NoReset; decide, fun j _ hj => ?_⟩
  have : ∀ j < 6, (inputAt (withBytes [0x74] base) j).txWritable = true := by decide
  exact this j hj

/-- Both FIFOs empty, and two bytes against one. -/
theorem witness_FlushEmptiesBothFifos :
    (∃ (s : State) (rest : List Byte), s.ctl.disp = .idle ∧ s.rxChan = 0x66 :: rest ∧ s.ctl.fifoOut = [] ∧
      s.ctl.fifoIn = [] ∧ NoReset (4 + max s.ctl.fifoOut.length s.ctl.fifoIn.length) s ∧
      (inputAt s (3 + max s.ctl.fifoOut.length s.ctl.fifoIn.length)).txWritable = true) ∧
    (∃ (s : State) (rest : List Byte), s.ctl.disp = .idle ∧ s.rxChan = 0x66 :: rest ∧ s.ctl.fifoOut = [1, 2] ∧
      s.ctl.fifoIn = [0x99] ∧ NoReset (4 + max s.ctl.fifoOut.length s.ctl.fifoIn.length) s ∧
      (inputAt s (3 + max s.ctl.fifoOut.length s.ctl.fifoIn.length)).txWritable = true) :=
  ⟨⟨withBytes [0x66] base, [], by decide, by decide, by decide, by decide, by unfold NoReset; decide, by decide⟩,
    ⟨withCtl ({ · with fifoOut := [1, 2], fifoIn := [0x99] }) (withBytes [0x66] base), [], by decide, by decide,
      by decide, by decide, by unfold NoReset; decide, by decide⟩⟩

/-- `OUT` full, and with one place left; the argument equals an opcode. -/
theorem witness_StageAppendsOrDropsItsByte :
    ∀ n ∈ [1, 2], ∃ (s : State) (a0 : Byte) (rest : List Byte), s.ctl.disp = .idle ∧ s.rxChan = 0x77 :: a0 :: rest ∧
      NoReset 4 s ∧ (inputAt s 3).txWritable = true ∧ s.ctl.fifoOut.length = n ∧ s.params.outDepth = 2 :=
  fun n _ => ⟨withCtl ({ · with fifoOut := List.replicate n 0 }) (withBytes [0x77, 0x76] base), 0x76, [], rfl, rfl,
    by unfold NoReset; change ∀ j < 4, (inputAt base j).rst = false; decide, by
      change (inputAt base 3).txWritable = true; decide, by simp [withCtl], rfl⟩

/-- The counts 0 and 2, the second with one byte stored. -/
theorem witness_ReadbackStreamsExactlyItsCount :
    (∃ (s : State) (rest : List Byte), s.ctl.disp = .idle ∧ s.rxChan = 0x52 :: 0 :: 0 :: 0 :: 0 :: rest ∧
      NoReset (7 + 0) s ∧ TxReady (7 + 0) s) ∧
    (∃ (s : State) (rest : List Byte), s.ctl.disp = .idle ∧ s.rxChan = 0x52 :: 2 :: 0 :: 0 :: 0 :: rest ∧
      s.ctl.fifoIn = [0x10] ∧ NoReset (7 + 2) s ∧ TxReady (7 + 2) s) :=
  ⟨⟨withBytes [0x52, 0, 0, 0, 0] base, [], by decide, by decide, by unfold NoReset; decide, by unfold TxReady; decide⟩,
    ⟨withCtl ({ · with fifoIn := [0x10] }) (withBytes [0x52, 2, 0, 0, 0] base), [], by decide, by decide, by decide,
      by unfold NoReset; decide, by unfold TxReady; decide⟩⟩

/-- The shortest hold, 1 cycle, and one of 4. -/
theorem witness_ResetTargetPulsesTheResetLine :
    ∀ n ∈ [1, 4], ∃ (s : State) (rest : List Byte), s.params.wf = true ∧ s.params.resetHoldCycles = n ∧
      s.ctl.disp = .idle ∧ s.rxChan = 0x72 :: rest ∧ NoReset (s.params.resetHoldCycles + 3) s ∧
      (inputAt s (s.params.resetHoldCycles + 2)).txWritable = true := by
  intro n hn
  refine ⟨{ withBytes [0x72] base with params := { params with resetHoldCycles := n } }, [], ?_⟩
  simp only [List.mem_cons, List.not_mem_nil, or_false] at hn
  rcases hn with rfl | rfl <;>
    exact ⟨by decide, rfl, by decide, by decide, by unfold NoReset; decide, by decide⟩

theorem witness_SetTclkCompletesInFourCycles :
    ∃ (s : State) (a0 : Byte) (rest : List Byte), s.ctl.disp = .idle ∧ s.rxChan = 0x73 :: a0 :: rest ∧ NoReset 4 s ∧
      (inputAt s 3).txWritable = true :=
  ⟨withBytes [0x73, 0xFF] base, 0xFF, [], by decide, by decide, by unfold NoReset; decide, by decide⟩

theorem witness_SetSclkCompletesInFiveCycles :
    ∃ (s : State) (lo hi : Byte) (rest : List Byte), s.ctl.disp = .idle ∧ s.rxChan = 0x53 :: lo :: hi :: rest ∧
      NoReset 5 s ∧ (inputAt s 4).txWritable = true :=
  ⟨withBytes [0x53, 0x10, 0xFF] base, 0x10, 0xFF, [], by decide, by decide, by unfold NoReset; decide, by decide⟩

theorem witness_TransactOnEmptyOutOnlyReplies :
    ∃ (s : State) (rest : List Byte), s.ctl.disp = .idle ∧ s.ctl.fifoOut = [] ∧ s.rxChan = 0x57 :: rest ∧
      NoReset 5 s ∧ (inputAt s 4).txWritable = true :=
  ⟨withBytes [0x57] base, [], by decide, by decide, by decide, by unfold NoReset; decide, by decide⟩

/-- The counter at the divider, and one below it. -/
theorem witness_LowPhaseEndsOnTheNextTick :
    ∀ c ∈ [2, (3 : Word16)], ∃ s : State, s.ctl.disp = .sendTransaction ∧ s.ctl.eng = .clockLow ∧
      s.ctl.sclkDiv = 3 ∧ s.prim.sclkCtr = c ∧ NoReset (s.ctl.sclkDiv.toNat - s.prim.sclkCtr.toNat + 1) s := by
  intro c hc
  refine ⟨withPrim ({ · with sclkCtr := c }) (withCtl ({ · with sclkDiv := 3 }) (inEngine .clockLow)), ?_⟩
  simp only [List.mem_cons, List.not_mem_nil, or_false] at hc
  rcases hc with rfl | rfl <;> exact ⟨by decide, by decide, by decide, by decide, by unfold NoReset; decide⟩

/-- The start of a byte, `0x42`, with the shortest phase (`sclk_div = 0`) and with a phase of two cycles. -/
theorem witness_ByteIsClockedInSixteenPhases :
    ∀ d ∈ [0, (1 : Word16)], ∃ s : State, s.ctl.disp = .sendTransaction ∧ s.ctl.eng = .clockLow ∧ s.ctl.bit = 0 ∧
      s.ctl.sclkR = false ∧ s.ctl.txdR = s.ctl.tx.getLsbD 0 ∧ s.prim.sclkCtr = 0 ∧ s.ctl.sclkDiv = d ∧
      NoReset (16 * (s.ctl.sclkDiv.toNat + 1)) s := by
  intro d hd
  refine ⟨withCtl ({ · with tx := 0x42, txdR := false, sclkDiv := d }) (inEngine .clockLow), ?_⟩
  simp only [List.mem_cons, List.not_mem_nil, or_false] at hd
  rcases hd with rfl | rfl <;>
    exact ⟨by decide, by decide, by decide, by decide, by decide, by decide, by decide, by unfold NoReset; decide⟩

/-- The two lines joined: the byte `0x01` with phases of one cycle, its one set bit first. -/
theorem witness_LoopbackCapturesTheByteSent :
    ∃ s : State, s.ctl.disp = .sendTransaction ∧ s.ctl.eng = .clockLow ∧ s.ctl.bit = 0 ∧ s.ctl.sclkR = false ∧
      s.ctl.txdR = s.ctl.tx.getLsbD 0 ∧ s.prim.sclkCtr = 0 ∧ s.ctl.sclkDiv = 0 ∧ NoReset 16 s ∧
      ∀ j < 16, After j s fun u => u.now.rxdIn = u.ctl.txdR := by
  refine ⟨{ withCtl ({ · with tx := 0x01, txdR := true }) (inEngine .clockLow) with
    now := lines true false true
    later := lines true false true :: List.replicate 15 (lines true false false) }, by decide, by decide, by decide,
    by decide, by decide, by decide, by decide, by unfold NoReset; decide, fun j hj => ?_⟩
  interval_cases j <;> exact ⟨_, rfl, by decide⟩

/-- Two bytes in `OUT`, with phases of one cycle: the reply is reached after 40 cycles. -/
theorem witness_TransactionIsFullDuplex :
    ∃ (s : State) (k : Nat), s.ctl.disp = .sendTransaction ∧ s.ctl.eng = .start ∧ NoReset k s ∧
      (∀ j < k, After j s fun u => u.ctl.disp = .sendTransaction) ∧ (After k s fun t => t.ctl.disp = .respond) ∧
      s.ctl.fifoOut.length = 2 := by
  refine ⟨withCtl ({ · with fifoOut := [0x41, 0x42] }) (inEngine .start), 40, by decide, by decide,
    by unfold NoReset; decide, fun j hj => ?_, ⟨_, rfl, by decide⟩, by decide⟩
  interval_cases j <;> exact ⟨_, rfl, by decide⟩

/-- One byte in `OUT` and exactly one free place in `IN`. -/
theorem witness_TransactionEndsWithAFreeTarget :
    ∃ s : State, s.ctl.disp = .sendTransaction ∧ s.ctl.eng = .start ∧ s.prim.busyR = false ∧
      s.ctl.fifoIn.length + s.ctl.fifoOut.length = s.params.inDepth ∧ s.ctl.fifoOut.length = 1 ∧
      NoReset (2 + s.ctl.fifoOut.length * (17 * (s.ctl.sclkDiv.toNat + 1) + 2)) s ∧
      ∀ j < 2 + s.ctl.fifoOut.length * (17 * (s.ctl.sclkDiv.toNat + 1) + 2), (inputAt s j).busyIn = false :=
  ⟨withCtl ({ · with fifoOut := [0x41], fifoIn := [0x00] }) (inEngine .start), by decide, by decide, by decide,
    by decide, by decide, by unfold NoReset; decide, by decide⟩

/-- Each wait, for 40 cycles. -/
theorem witness_WaitsMayLastForEver :
    (∃ s : State, NoReset 40 s ∧ s.ctl.disp = .setSclk ∧ s.rxChan = [] ∧ arrivals s 40 = []) ∧
    (∃ s : State, NoReset 40 s ∧ s.ctl.disp = .respond ∧ ∀ j < 40, (inputAt s j).txWritable = false) ∧
    (∃ s : State, NoReset 40 s ∧ s.ctl.disp = .sendTransaction ∧ s.ctl.eng = .waitNotBusy ∧ s.prim.busyR = true ∧
      ∀ j < 40, (inputAt s j).busyIn = true) ∧
    (∃ s : State, NoReset 40 s ∧ s.ctl.disp = .sendTransaction ∧ s.ctl.eng = .writeback ∧
      s.ctl.fifoIn.length = s.params.inDepth) :=
  ⟨⟨inState .setSclk, by unfold NoReset; decide, by decide, by decide, by decide⟩,
    ⟨stalled (inState .respond), by unfold NoReset; decide, by decide, by decide⟩,
    ⟨withPrim ({ · with busyR := true })
      { inEngine .waitNotBusy with
        now := lines true true false
        later := List.replicate 40 (lines true true false) }, by unfold NoReset; decide, by decide, by decide,
      by decide, by decide⟩,
    ⟨withCtl ({ · with fifoIn := [0, 0] }) (inEngine .writeback), by unfold NoReset; decide, by decide, by decide,
      by decide⟩⟩

/-! ### The whole machine -/

/-- `base` meets the invariant, and so does it while the engine clocks a bit. -/
theorem witness_StepKeepsTheInvariant :
    (∃ s t : State, BlockInv s ∧ step s = .next t) ∧
    (∃ s t : State, BlockInv s ∧ s.ctl.eng = .clockLow ∧ step s = .next t) :=
  ⟨⟨base, _, by unfold BlockInv ControlInv; decide, rfl⟩,
    ⟨withCtl ({ · with cmd := 0x57, txdR := false }) (inEngine .clockLow), _, by unfold BlockInv ControlInv; decide,
      by decide, rfl⟩⟩

theorem witness_RunningFollowsTheEdgeDetector :
    ∃ s t : State, s.prim.running = s.prim.busyP ∧ s.prim.busyR = true ∧ step s = .next t :=
  ⟨withPrim ({ · with busyR := true }) base, _, by decide, by decide, rfl⟩

theorem witness_FifosChangeOnlyByTheirRules :
    (∃ s t : State, s.now.rst = false ∧ step s = .next t ∧ t.ctl.fifoOut ≠ s.ctl.fifoOut ∧ s.ctl.disp = .fifoWrite) ∧
    (∃ s t : State, s.now.rst = false ∧ step s = .next t ∧ t.ctl.fifoIn ≠ s.ctl.fifoIn ∧ s.ctl.eng = .writeback) :=
  ⟨⟨withBytes [0x41] (inState .fifoWrite), _, by decide, rfl, by decide, by decide⟩,
    ⟨inEngine .writeback, _, by decide, rfl, by decide, by decide⟩⟩

/-- A step that writes `cmd`, one that writes the divider of `s`, one that writes `sclk_r` and `txd_r`. -/
theorem witness_RegistersAreWrittenOnlyByTheirRules :
    (∃ s t : State, s.now.rst = false ∧ step s = .next t ∧ t.ctl.cmd ≠ s.ctl.cmd) ∧
    (∃ s t : State, s.now.rst = false ∧ step s = .next t ∧ t.ctl.tclkDiv ≠ s.ctl.tclkDiv ∧ t.ctl.resp ≠ s.ctl.resp) ∧
    (∃ s t : State, s.now.rst = false ∧ step s = .next t ∧ t.ctl.sclkR ≠ s.ctl.sclkR ∧ t.ctl.txdR ≠ s.ctl.txdR) ∧
    (∃ s t : State, s.now.rst = false ∧ step s = .next t ∧ t.ctl.snap ≠ s.ctl.snap) ∧
    (∃ s t : State, s.now.rst = false ∧ step s = .next t ∧ t.ctl.trstR ≠ s.ctl.trstR) ∧
    (∃ s t : State, s.now.rst = false ∧ step s = .next t ∧ t.ctl.sclkDiv ≠ s.ctl.sclkDiv) ∧
    (∃ s t : State, s.now.rst = false ∧ step s = .next t ∧ t.ctl.remaining ≠ s.ctl.remaining ∧
      t.ctl.phase ≠ s.ctl.phase) :=
  ⟨⟨withBytes [0x76] base, _, by decide, rfl, by decide⟩,
    ⟨withBytes [0x76] (inState .setTclk), _, by decide, rfl, by decide⟩,
    ⟨inEngine .waitNotBusy, _, by decide, rfl, by decide⟩,
    ⟨withPrim ({ · with count := 5 }) (withCtl ({ · with cmd := 0x74 }) (inState .dispatch)), _, by decide, rfl,
      by decide⟩,
    ⟨withCtl ({ · with cmd := 0x72 }) (inState .dispatch), _, by decide, rfl, by decide⟩,
    ⟨withCtl ({ · with idx := 1 }) (withBytes [0x01] (inState .setSclk)), _, by decide, rfl, by decide⟩,
    ⟨withCtl ({ · with idx := 3 }) (withBytes [0x01] (inState .fifoReadback)), _, by decide, rfl, by decide⟩⟩

end Sys2Proof.Tests
end

section
/-! PROOFS. The two channels and the reset input (10_state.md): what one cycle may do to a channel, said once for every
dispatcher rule (`dispRule_transfer`) and once for a step (`step_transfer_cases`). -/

namespace Sys2Proof.Channels

open Sys2Proof.Machine Sys2Proof.Safety

/-! ### The reset cycle -/

/-- The reset input overrides the rule of every command. -/
theorem exec_of_reset {s : State} (h : s.now.rst = true) (i : Instr) : exec i s = .next (resetCycle s) := by
  rw [exec_eq, runCycle_of_reset h]

theorem resetCycle_noTransfer (s : State) : NoTransfer s (resetCycle s) :=
  ⟨resetCycle_out s, resetCycle_rxChan s, resetCycle_sent s⟩

/-- Settles O10: whatever command is in hand, the cycle is `resetCycle`, whose fields are the listed values. -/
theorem resetInputOverridesEveryRule : Obligations.ResetInputOverridesEveryRule := fun s h =>
  ⟨resetCycle s, step_of_reset h, exec_of_reset h, resetCycle_params s, resetCycle_ctl s, resetCycle_prim s,
    resetCycle_noTransfer s⟩

/-! ### What a dispatcher rule may do to the channels -/

/-- The states in which the dispatcher waits for a host byte: IDLE and the argument waits (rules R111, R114, R116). -/
def AwaitsByte (c : Control) : Prop :=
  c.disp = .idle ∨ c.disp = .fifoWrite ∨ c.disp = .setTclk ∨ c.disp = .setSclk ∨
    (c.disp = .fifoReadback ∧ c.phase = .arg)

/-- What a cycle may do to the channels (rules R14, R23): nothing, take a byte that is presented and awaited, or send
one that the transmit core accepts. -/
inductive Transfer (v : Seen) (c : Control) : Act → Prop where
  | none (d : Control) : Transfer v c (setCtl d)
  | take (d : Control) (readable : v.rxReadable = true) (awaited : AwaitsByte c) : Transfer v c (rxTake d)
  | send (b : Byte) (d : Control) (writable : v.txWritable = true) : Transfer v c (txPut b d)

section
variable {v : Seen} {c : Control}

theorem idleRule_transfer (h : c.disp = .idle) : Transfer v c (idleRule v c) := by
  cases hr : v.rxReadable with
  | true => rw [idleRule_of_readable hr]; exact .take _ hr (.inl h)
  | false => rw [idleRule_of_not_readable hr]; exact .none _

theorem awaitByte_transfer (act : Byte → Control) (h : AwaitsByte c) : Transfer v c (awaitByte act v c) := by
  cases hr : v.rxReadable with
  | true => rw [awaitByte_of_readable hr]; exact .take _ hr h
  | false => rw [awaitByte_of_not_readable hr]; exact .none _

theorem respondRule_transfer : Transfer v c (respondRule v c) := by
  cases hw : v.txWritable with
  | true => rw [respondRule_of_writable hw]; exact .send _ _ hw
  | false => rw [respondRule_of_not_writable hw]; exact .none _

theorem timerReportRule_transfer : Transfer v c (timerReportRule v c) := by
  unfold timerReportRule
  split
  next hw => exact .send _ _ hw
  next => exact .none _

theorem readbackStreamRule_transfer : Transfer v c (readbackStreamRule v c) := by
  unfold readbackStreamRule
  split
  next => exact .none _
  next =>
    split
    next hw => split <;> exact .send _ _ hw
    next => exact .none _

theorem fifoReadbackRule_transfer (h : c.disp = .fifoReadback) : Transfer v c (fifoReadbackRule v c) := by
  cases hp : c.phase with
  | arg =>
    simp only [fifoReadbackRule, hp]
    exact awaitByte_transfer _ (.inr (.inr (.inr (.inr ⟨h, hp⟩))))
  | stream =>
    simp only [fifoReadbackRule, hp]
    exact readbackStreamRule_transfer

theorem flushRule_transfer : Transfer v c (flushRule v c) := by
  unfold flushRule; split <;> exact .none _

theorem resetTargetRule_transfer : Transfer v c (resetTargetRule v c) := by
  unfold resetTargetRule; split <;> exact .none _

theorem engineRule_transfer : Transfer v c (engineRule v c) := by
  unfold engineRule; split <;> exact .none _

/-- The rule of every dispatcher state keeps to the handshakes of both channels. -/
theorem dispRule_transfer (v : Seen) (c : Control) : Transfer v c (dispRule v c) := by
  cases h : c.disp <;> simp only [dispRule, h]
  case idle => exact idleRule_transfer h
  case dispatch => exact .none _
  case respondVersion => exact .none _
  case flush => exact flushRule_transfer
  case resetTarget => exact resetTargetRule_transfer
  case fifoWrite => exact awaitByte_transfer _ (.inr (.inl h))
  case sendTransaction => exact engineRule_transfer
  case fifoReadback => exact fifoReadbackRule_transfer h
  case timerReport => exact timerReportRule_transfer
  case timerStatus => exact .none _
  case setTclk => exact awaitByte_transfer _ (.inr (.inr (.inl h)))
  case setSclk => exact awaitByte_transfer _ (.inr (.inr (.inr (.inl h))))
  case respond => exact respondRule_transfer

end

/-! ### What a step may do to the channels -/

/-- A step moves no byte, or takes one that is presented and awaited, or sends one that is accepted; only a cycle
outside reset moves one. -/
theorem step_transfer_cases {s t : State} (h : step s = .next t) :
    NoTransfer s t ∨
      (s.now.rst = false ∧ s.rxChan ≠ [] ∧ AwaitsByte s.ctl ∧ Takes s t) ∨
      (s.now.rst = false ∧ s.now.txWritable = true ∧ ∃ b, Sends b s t) := by
  obtain ⟨-, rfl⟩ | ⟨hrst, rfl⟩ := step_next h
  · exact .inl (resetCycle_noTransfer s)
  · have htr := dispRule_transfer (onChannel s) s.ctl
    generalize dispRule (onChannel s) s.ctl = a at htr
    cases htr with
    | none d => exact .inl ⟨rfl, rfl, by simp⟩
    | take d readable awaited =>
      exact .inr (.inl ⟨hrst, by simpa using readable, awaited, rfl, rfl, by simp⟩)
    | send b d writable => exact .inr (.inr ⟨hrst, writable, b, rfl, rfl, by simp⟩)

/-- Settles O24, by what a step may do to the channels. -/
theorem channelsAreInOrderAndLossless : Obligations.ChannelsAreInOrderAndLossless := by
  intro s t h
  obtain ⟨hout, hrx, hsent⟩ | ⟨-, hne, -, hout, hrx, hsent⟩ | ⟨-, hw, b, hout, hrx, hsent⟩ := step_transfer_cases h
  · simp [hout, hrx, hsent]
  · obtain ⟨b, rest, hs⟩ := List.exists_cons_of_ne_nil hne
    simp [hout, hrx, hsent, hs]
  · simp [hout, hrx, hsent, hw]

end Sys2Proof.Channels
end

section
/-! PROOFS. The two FIFOs: what one cycle may do to `OUT` and to `IN`, said once for every rule of the dispatcher and
the engine (`dispRule_fifoMove`) and once for a step (`step_fifoMove`). -/

namespace Sys2Proof.Fifos

open Sys2Proof.Machine

/-! ### Emptiness, fullness and the pop -/

theorem fifoEmpty_iff {f : List Byte} : fifoEmpty f = true ↔ f = [] := by simp [fifoEmpty]

theorem fifoFull_iff {depth : Nat} {f : List Byte} : fifoFull depth f = true ↔ f.length = depth := by simp [fifoFull]

/-- Where the FIFO is not empty, `Pop` removes exactly its head. -/
theorem eq_head_cons_pop {f : List Byte} (h : fifoEmpty f ≠ true) : f = head f :: pop f := by
  obtain ⟨b, rest, rfl⟩ := List.exists_cons_of_ne_nil (mt fifoEmpty_iff.mpr h)
  rfl

/-! ### What a cycle may do to each FIFO (rules R55 to R57) -/

/-- The contents `OUT` may have at the end of a cycle that starts with the registers `c`. -/
inductive OutChange (v : Seen) (c : Control) : List Byte → Prop where
  | keep : OutChange v c c.fifoOut
  | push (state : c.disp = .fifoWrite) (room : c.fifoOut.length ≠ v.params.outDepth) (readable : v.rxReadable = true) :
      OutChange v c (c.fifoOut ++ [v.rxData])
  | pop {b : Byte} {rest : List Byte}
      (state : c.disp = .flush ∨ (c.disp = .sendTransaction ∧ c.eng = .prepare)) (content : c.fifoOut = b :: rest) :
      OutChange v c rest

/-- The contents `IN` may have at the end of a cycle that starts with the registers `c`. -/
inductive InChange (v : Seen) (c : Control) : List Byte → Prop where
  | keep : InChange v c c.fifoIn
  | push (state : c.disp = .sendTransaction ∧ c.eng = .writeback) (room : c.fifoIn.length ≠ v.params.inDepth) :
      InChange v c (c.fifoIn ++ [c.sr])
  | pop {b : Byte} {rest : List Byte}
      (state : c.disp = .flush ∨ (c.disp = .fifoReadback ∧ c.phase = .stream)) (content : c.fifoIn = b :: rest) :
      InChange v c rest

/-- The registers `d` hold both FIFOs as a cycle from `c` may leave them. -/
structure FifoMove (v : Seen) (c d : Control) : Prop where
  out : OutChange v c d.fifoOut
  inn : InChange v c d.fifoIn

/-- The registers `d` hold both FIFOs as `c` does. -/
def KeepsFifos (c d : Control) : Prop := d.fifoOut = c.fifoOut ∧ d.fifoIn = c.fifoIn

section
variable {v : Seen} {c d : Control}

theorem OutChange.of_eq {f : List Byte} (h : f = c.fifoOut) : OutChange v c f := h ▸ .keep

theorem InChange.of_eq {f : List Byte} (h : f = c.fifoIn) : InChange v c f := h ▸ .keep

theorem KeepsFifos.fifoMove (h : KeepsFifos c d) : FifoMove v c d := ⟨.of_eq h.1, .of_eq h.2⟩

/-! ### The rules that leave both FIFOs as they are -/

theorem keepsFifos_refl (c : Control) : KeepsFifos c c := ⟨rfl, rfl⟩

theorem KeepsFifos.ite {p : Prop} [Decidable p] {d' : Control} (h : KeepsFifos c d) (h' : KeepsFifos c d') :
    KeepsFifos c (if p then d else d') := by
  split
  · exact h
  · exact h'

theorem idleRule_keepsFifos : KeepsFifos c (idleRule v c).ctl := by
  unfold idleRule; split <;> exact ⟨rfl, rfl⟩

theorem dispatchEntry_keepsFifos : KeepsFifos c (dispatchEntry v c) := by
  unfold dispatchEntry
  repeat' apply KeepsFifos.ite
  all_goals exact ⟨rfl, rfl⟩

theorem respondRule_keepsFifos : KeepsFifos c (respondRule v c).ctl := by
  unfold respondRule; split <;> exact ⟨rfl, rfl⟩

theorem resetTargetRule_keepsFifos : KeepsFifos c (resetTargetRule v c).ctl := by
  unfold resetTargetRule; split <;> exact ⟨rfl, rfl⟩

theorem timerReportRule_keepsFifos : KeepsFifos c (timerReportRule v c).ctl := by
  unfold timerReportRule; split_ifs <;> exact ⟨rfl, rfl⟩

theorem awaitByte_keepsFifos {act : Byte → Control} (h : ∀ b, KeepsFifos c (act b)) :
    KeepsFifos c (awaitByte act v c).ctl := by
  cases hr : v.rxReadable with
  | true => rw [awaitByte_of_readable hr]; exact h _
  | false => rw [awaitByte_of_not_readable hr]; exact keepsFifos_refl c

theorem setTclkRule_keepsFifos : KeepsFifos c (setTclkRule v c).ctl := awaitByte_keepsFifos fun _ => ⟨rfl, rfl⟩

theorem setSclkRule_keepsFifos : KeepsFifos c (setSclkRule v c).ctl :=
  awaitByte_keepsFifos fun _ => by split <;> exact ⟨rfl, rfl⟩

theorem readbackArgRule_keepsFifos : KeepsFifos c (readbackArgRule v c).ctl :=
  awaitByte_keepsFifos fun _ => by split <;> exact ⟨rfl, rfl⟩

theorem waitNotBusyRule_keepsFifos : KeepsFifos c (waitNotBusyRule v c) := by
  unfold waitNotBusyRule; split <;> exact ⟨rfl, rfl⟩

theorem clockLowRule_keepsFifos : KeepsFifos c (clockLowRule v c) := by
  unfold clockLowRule; split <;> exact ⟨rfl, rfl⟩

theorem clockHighRule_keepsFifos : KeepsFifos c (clockHighRule v c) := by
  unfold clockHighRule; split_ifs <;> exact ⟨rfl, rfl⟩

/-! ### The rules that move a byte -/

/-- FLUSH pops each FIFO that has a byte (rule R140). -/
theorem flushRule_fifoMove (h : c.disp = .flush) : FifoMove v c (flushRule v c).ctl := by
  unfold flushRule
  split
  next => exact KeepsFifos.fifoMove ⟨rfl, rfl⟩
  next =>
    constructor
    · dsimp only [setCtl_ctl]
      split
      next => exact .keep
      next hne => exact .pop (.inl h) (eq_head_cons_pop hne)
    · dsimp only [setCtl_ctl]
      split
      next => exact .keep
      next hne => exact .pop (.inl h) (eq_head_cons_pop hne)

/-- FIFO_WRITE pushes the presented byte where `OUT` has room (rule R141). -/
theorem fifoWriteRule_fifoMove (h : c.disp = .fifoWrite) : FifoMove v c (fifoWriteRule v c).ctl := by
  unfold fifoWriteRule
  cases hr : v.rxReadable with
  | false => rw [awaitByte_of_not_readable hr]; exact (keepsFifos_refl c).fifoMove
  | true =>
    rw [awaitByte_of_readable hr, rxTake_ctl]
    split
    next => exact KeepsFifos.fifoMove ⟨rfl, rfl⟩
    next hroom => exact ⟨.push h (mt fifoFull_iff.mpr hroom) hr, .keep⟩

/-- The stream of `R` pops `IN` where it has a byte (rule R142). -/
theorem readbackStreamRule_fifoMove (h : c.disp = .fifoReadback) (hp : c.phase = .stream) :
    FifoMove v c (readbackStreamRule v c).ctl := by
  unfold readbackStreamRule
  split
  next => exact KeepsFifos.fifoMove ⟨rfl, rfl⟩
  next =>
    split
    next =>
      split
      next => exact KeepsFifos.fifoMove ⟨rfl, rfl⟩
      next hne => exact ⟨.keep, .pop (.inr ⟨h, hp⟩) (eq_head_cons_pop hne)⟩
    next => exact (keepsFifos_refl c).fifoMove

theorem fifoReadbackRule_fifoMove (h : c.disp = .fifoReadback) : FifoMove v c (fifoReadbackRule v c).ctl := by
  cases hp : c.phase with
  | arg => simp only [fifoReadbackRule, hp]; exact readbackArgRule_keepsFifos.fifoMove
  | stream => simp only [fifoReadbackRule, hp]; exact readbackStreamRule_fifoMove h hp

/-- PREPARE pops `OUT` where it has a byte (rule R152). -/
theorem prepareRule_fifoMove (h : c.disp = .sendTransaction) (he : c.eng = .prepare) :
    FifoMove v c (prepareRule c) := by
  unfold prepareRule
  split
  next => exact KeepsFifos.fifoMove ⟨rfl, rfl⟩
  next hne => exact ⟨.pop (.inr ⟨h, he⟩) (eq_head_cons_pop hne), .keep⟩

/-- WRITEBACK pushes the captured byte where `IN` has room (rule R156). -/
theorem writebackRule_fifoMove (h : c.disp = .sendTransaction) (he : c.eng = .writeback) :
    FifoMove v c (writebackRule v c) := by
  unfold writebackRule
  split
  next => exact (keepsFifos_refl c).fifoMove
  next hroom => exact ⟨.keep, .push ⟨h, he⟩ (mt fifoFull_iff.mpr hroom)⟩

theorem engineRule_fifoMove (h : c.disp = .sendTransaction) : FifoMove v c (engineRule v c).ctl := by
  cases he : c.eng <;> simp only [engineRule, he, setCtl_ctl]
  case eIdle => exact (keepsFifos_refl c).fifoMove
  case start => exact KeepsFifos.fifoMove ⟨rfl, rfl⟩
  case prepare => exact prepareRule_fifoMove h he
  case waitNotBusy => exact waitNotBusyRule_keepsFifos.fifoMove
  case clockLow => exact clockLowRule_keepsFifos.fifoMove
  case clockHigh => exact clockHighRule_keepsFifos.fifoMove
  case writeback => exact writebackRule_fifoMove h he

/-- The rule of every dispatcher state changes the FIFOs only as rules R55 to R57 allow. -/
theorem dispRule_fifoMove (v : Seen) (c : Control) : FifoMove v c (dispRule v c).ctl := by
  cases h : c.disp <;> simp only [dispRule, h]
  case idle => exact idleRule_keepsFifos.fifoMove
  case dispatch => exact dispatchEntry_keepsFifos.fifoMove
  case respondVersion => exact KeepsFifos.fifoMove ⟨rfl, rfl⟩
  case flush => exact flushRule_fifoMove h
  case resetTarget => exact resetTargetRule_keepsFifos.fifoMove
  case fifoWrite => exact fifoWriteRule_fifoMove h
  case sendTransaction => exact engineRule_fifoMove h
  case fifoReadback => exact fifoReadbackRule_fifoMove h
  case timerReport => exact timerReportRule_keepsFifos.fifoMove
  case timerStatus => exact KeepsFifos.fifoMove ⟨rfl, rfl⟩
  case setTclk => exact setTclkRule_keepsFifos.fifoMove
  case setSclk => exact setSclkRule_keepsFifos.fifoMove
  case respond => exact respondRule_keepsFifos.fifoMove

end

/-! ### What a step may do to the FIFOs -/

theorem step_fifoMove {s t : State} (hrst : s.now.rst = false) (h : step s = .next t) :
    FifoMove (onChannel s) s.ctl t.ctl := by
  rw [step_of_running hrst] at h
  cases h
  exact dispRule_fifoMove (onChannel s) s.ctl

/-- `rx_readable` is 1 exactly where a byte stands at the head of the channel, and that byte is `rx_data`. -/
theorem rxChan_eq_cons_of_readable {s : State} (h : (onChannel s).rxReadable = true) :
    ∃ rest, s.rxChan = (onChannel s).rxData :: rest := by
  cases hx : s.rxChan <;> simp_all

/-- Settles O59, by what a step may do to the FIFOs. -/
theorem fifosChangeOnlyByTheirRules : Obligations.FifosChangeOnlyByTheirRules := by
  intro s t hrst h
  obtain ⟨hout, hin⟩ := step_fifoMove hrst h
  generalize t.ctl.fifoOut = out at hout
  generalize t.ctl.fifoIn = inn at hin
  constructor
  · cases hout with
    | keep => exact .inl rfl
    | push state room readable =>
      obtain ⟨rest, hrx⟩ := rxChan_eq_cons_of_readable readable
      exact .inr (.inl ⟨state, room, _, rest, hrx, rfl⟩)
    | pop state content => exact .inr (.inr ⟨state, _, content⟩)
  · cases hin with
    | keep => exact .inl rfl
    | push state room => exact .inr (.inl ⟨state.1, state.2, room, rfl⟩)
    | pop state content => exact .inr (.inr ⟨state, _, content⟩)

end Sys2Proof.Fifos
end

section
/-! PROOFS. Commands with an argument: what each decodes to, and the number its argument bytes stand for (rules R60,
R73). -/

namespace Sys2Proof.Arguments

section
variable (c0 c1 c2 c3 : Byte)

/-! ### The number an assembled argument stands for -/

theorem le16_toNat : (le16 c0 c1).toNat = c0.toNat + 2 ^ 8 * c1.toNat := by
  rw [le16, append_toNat]; omega

theorem le32_toNat :
    (le32 c0 c1 c2 c3).toNat = c0.toNat + 2 ^ 8 * c1.toNat + 2 ^ 16 * c2.toNat + 2 ^ 24 * c3.toNat := by
  rw [le32, append_toNat, append_toNat, append_toNat]; omega

/-! ### The decoder on each command with an argument -/

variable (rest : List Byte)

theorem decode_stage : decode (opStage :: c0 :: rest) = .ok (.stage c0, rest) := by simp [decode]

theorem decode_setTclk : decode (opSetTclk :: c0 :: rest) = .ok (.setTclk c0, rest) := by simp [decode]

theorem decode_setSclk : decode (opSetSclk :: c0 :: c1 :: rest) = .ok (.setSclk (le16 c0 c1), rest) := by
  simp [decode]

theorem decode_readback :
    decode (opReadback :: c0 :: c1 :: c2 :: c3 :: rest) = .ok (.readback (le32 c0 c1 c2 c3), rest) := by
  simp [decode]

end

/-- Settles O2, by what the decoder assembles and the number it stands for. -/
theorem argumentsAreUnsignedLittleEndian : Obligations.ArgumentsAreUnsignedLittleEndian :=
  ⟨decode_stage, decode_setTclk,
    fun lo hi rest => ⟨le16 lo hi, decode_setSclk lo hi rest, le16_toNat lo hi⟩,
    fun c0 c1 c2 c3 rest => ⟨le32 c0 c1 c2 c3, decode_readback c0 c1 c2 c3 rest, le32_toNat c0 c1 c2 c3⟩⟩

end Sys2Proof.Arguments
end

section
/-! PROOFS. The opcode map on all 256 command bytes (rules R72, R75): the bytes that are a whole command by themselves
decode here, the four opcodes with arguments in `Arguments`. -/

namespace Sys2Proof.OpcodeMap

section
variable (rest : List Byte)

/-- A byte that takes no argument is a whole command, whatever follows it (rule R78). -/
theorem decode_of_argCount_eq_zero {op : Byte} {i : Instr} (hi : ∀ a0 a1 a2 a3, instrOf op a0 a1 a2 a3 = i)
    (hlen : argCount op = 0) : decode (op :: rest) = .ok (i, rest) := by
  simp [decode, hi, hlen]

theorem decode_version : decode (opVersion :: rest) = .ok (.version, rest) :=
  decode_of_argCount_eq_zero rest instrOf_version argCount_version

theorem decode_flush : decode (opFlush :: rest) = .ok (.flush, rest) :=
  decode_of_argCount_eq_zero rest instrOf_flush argCount_flush

theorem decode_resetTarget : decode (opResetTarget :: rest) = .ok (.resetTarget, rest) :=
  decode_of_argCount_eq_zero rest instrOf_resetTarget argCount_resetTarget

theorem decode_transact : decode (opTransact :: rest) = .ok (.transact, rest) :=
  decode_of_argCount_eq_zero rest instrOf_transact argCount_transact

theorem decode_timerReport : decode (opTimerReport :: rest) = .ok (.timerReport, rest) :=
  decode_of_argCount_eq_zero rest instrOf_timerReport argCount_timerReport

theorem decode_timerStatus : decode (opTimerStatus :: rest) = .ok (.timerStatus, rest) :=
  decode_of_argCount_eq_zero rest instrOf_timerStatus argCount_timerStatus

/-- A byte outside the opcode map is a whole unknown command (rule R75). -/
theorem decode_unknown {b : Byte} (h : b ∉ opcodes) : decode (b :: rest) = .ok (.unknown b, rest) :=
  decode_of_argCount_eq_zero rest (fun a0 a1 a2 a3 => (instrOf_unknown h a0 a1 a2 a3).1)
    (instrOf_unknown h 0 0 0 0).2

end

/-- Settles O1, one decoding lemma per opcode and one for all the other bytes. -/
theorem opcodeMapIsDecodedByAllEightBits : Obligations.OpcodeMapIsDecodedByAllEightBits := fun rest =>
  ⟨decode_version rest, decode_flush rest, decode_resetTarget rest, decode_transact rest, decode_timerReport rest,
    decode_timerStatus rest,
    fun a0 => Arguments.decode_stage a0 rest,
    fun a0 => Arguments.decode_setTclk a0 rest,
    fun lo hi => ⟨le16 lo hi, Arguments.decode_setSclk lo hi rest⟩,
    fun c0 c1 c2 c3 => ⟨le32 c0 c1 c2 c3, Arguments.decode_readback c0 c1 c2 c3 rest⟩,
    fun _ hb => decode_unknown rest hb⟩

end Sys2Proof.OpcodeMap
end

section
/-! PROOFS. The parts that run in every cycle: the input registers, the busy-timer and the two dividers (rules R90 to
R105). Outside reset a step makes of their registers what `primNext` says (`step_primNext`), so each statement is one
about `primNext` alone. -/

namespace Sys2Proof.EveryCycle

open Sys2Proof.Machine

/-- Whatever the dispatcher does, a step outside reset advances the primitives by `primNext` (rule R21). -/
theorem step_primNext {s : State} (h : s.now.rst = false) :
    ∃ t, step s = .next t ∧ t.prim = primNext s.now s.ctl s.prim :=
  ⟨_, step_of_running h, clockCycle_prim _ s⟩

/-! ### The raw lines reach only the input registers (rules R90, R91) -/

/-- The state with the target's lines at `busy` and `rxd` in this cycle. -/
def withLines (busy rxd : Bool) (s : State) : State := { s with now := { s.now with busyIn := busy, rxdIn := rxd } }

/-- The state with the two input registers at `busy` and `rxd`. -/
def withSampled (busy rxd : Bool) (s : State) : State := { s with prim := { s.prim with busyR := busy, rxdR := rxd } }

section
variable (busy rxd : Bool) (s : State)

@[simp] theorem withLines_rst : (withLines busy rxd s).now.rst = s.now.rst := rfl

@[simp] theorem withLines_ctl : (withLines busy rxd s).ctl = s.ctl := rfl

/-- No rule of the dispatcher or the engine sees the raw lines. -/
@[simp] theorem onChannel_withLines : onChannel (withLines busy rxd s) = onChannel s := rfl

/-- The parts that run in every cycle copy the raw lines and use them for nothing else. -/
theorem clockCycle_withLines (a : Act) :
    clockCycle a (withLines busy rxd s) = withSampled busy rxd (clockCycle a s) := rfl

/-- Outside reset, other lines in a cycle give the same next state but for the two input registers. -/
theorem step_withLines {s t : State} (hrst : s.now.rst = false) (h : step s = .next t) :
    step (withLines busy rxd s) = .next (withSampled busy rxd t) := by
  rw [step_of_running hrst] at h
  cases h
  rw [step_of_running (by rw [withLines_rst, hrst]), onChannel_withLines, withLines_ctl, clockCycle_withLines]

end

/-- Settles O12: the input registers by `primNext`, the rest by `step_withLines`. -/
theorem inputRegistersAloneReadTheLines : Obligations.InputRegistersAloneReadTheLines := by
  intro s hrst
  obtain ⟨t, ht, hp⟩ := step_primNext hrst
  exact ⟨t, ht, by rw [hp, primNext_busyR], by rw [hp, primNext_rxdR], by rw [hp, primNext_busyP],
    fun busy rxd => step_withLines busy rxd hrst ht⟩

/-! ### The busy-timer (rule R94) -/

/-- Settles O13, by the four things the busy-timer can do in a cycle. -/
theorem busyTimerArmsFreezesAndAdvances : Obligations.BusyTimerArmsFreezesAndAdvances := by
  intro s hrst
  obtain ⟨t, ht, hp⟩ := step_primNext hrst
  refine ⟨t, ht, ?_⟩
  rw [hp, primNext_count, primNext_running]
  obtain ⟨hr, hq, hrun, hn⟩ | ⟨hr, hq, hn⟩ | ⟨hfall, hrun, hn⟩ | ⟨hsame, hrun, hn⟩ := timerNext_cases s.prim
  case inl => simp [hr, hq, hrun, hn]
  case inr.inl => simp [hr, hq, hn]
  case inr.inr.inl =>
    have hnofall : ¬(s.prim.busyP = true ∧ s.prim.busyR = false) := fun h => hfall h.symm
    rw [if_neg (by simp [hrun]), if_neg hnofall, if_pos hrun, hn]
    exact ⟨BitVec.toNat_add _ _, rfl⟩
  case inr.inr.inr => simp [hsame, hrun, hn]

/-! ### The dividers (rules R101, R102, R105) -/

/-- A divider restarts where its counter has reached its value, and else counts up without wrapping (rule R100). -/
theorem dividerNext_spec {n : Nat} (c d : BitVec n) :
    if d.toNat ≤ c.toNat then dividerNext c d = 0 else (dividerNext c d).toNat = c.toNat + 1 := by
  split
  next h => exact dividerNext_of_tick h
  next h => exact dividerNext_toNat_of_no_tick (Nat.lt_of_not_le h)

/-- The target clock toggles exactly on the tick of its divider. -/
theorem primNext_tclkR_eq (inp : Inputs) (c : Control) (p : Primitives) :
    (primNext inp c p).tclkR = if c.tclkDiv.toNat ≤ p.tclkCtr.toNat then !p.tclkR else p.tclkR := by
  simp only [primNext_tclkR, tclkTick, dividerTick_iff]

/-- Settles O14, by what a divider does in a cycle, on and off its tick. -/
theorem dividersTickAtTheirValue : Obligations.DividersTickAtTheirValue := by
  intro s hrst
  obtain ⟨t, ht, hp⟩ := step_primNext hrst
  refine ⟨t, ht, ?_⟩
  rw [hp, primNext_tclkCtr, primNext_sclkCtr, primNext_tclkR_eq]
  refine ⟨?_, dividerNext_spec s.prim.sclkCtr s.ctl.sclkDiv⟩
  have htclk := dividerNext_spec s.prim.tclkCtr s.ctl.tclkDiv
  split
  next h => exact ⟨by rwa [if_pos h] at htclk, rfl⟩
  next h => exact ⟨by rwa [if_neg h] at htclk, rfl⟩

end Sys2Proof.EveryCycle
end

section
/-! PROOFS. The dispatcher, state by state (41_dispatcher.md): which rule acts in a state, where a branch state may lead
(`LeadsTo`), and what the waits do with no byte presented and with one. -/

namespace Sys2Proof.Dispatcher

open Sys2Proof.Machine Sys2Proof.Safety

/-! ### The rule of each state, and what it sees of the receive channel -/

section
variable {v : Seen} {c : Control}

theorem dispRule_idle (h : c.disp = .idle) : dispRule v c = idleRule v c := by rw [dispRule, h]

theorem dispRule_dispatch (h : c.disp = .dispatch) : dispRule v c = setCtl (dispatchEntry v c) := by rw [dispRule, h]

theorem dispRule_fifoWrite (h : c.disp = .fifoWrite) : dispRule v c = fifoWriteRule v c := by rw [dispRule, h]

theorem dispRule_setTclk (h : c.disp = .setTclk) : dispRule v c = setTclkRule v c := by rw [dispRule, h]

theorem dispRule_setSclk (h : c.disp = .setSclk) : dispRule v c = setSclkRule v c := by rw [dispRule, h]

theorem dispRule_readbackArg (h : c.disp = .fifoReadback) (hp : c.phase = .arg) :
    dispRule v c = readbackArgRule v c := by rw [dispRule, h]; simp only [fifoReadbackRule, hp]

theorem dispRule_respond (h : c.disp = .respond) : dispRule v c = respondRule v c := by rw [dispRule, h]

/-- A byte outside the opcode map takes DISPATCH's `otherwise` arm (rule R118). -/
theorem dispatchEntry_of_unknown (h : c.cmd ∉ opcodes) : dispatchEntry v c = answer replyUnknown c := by
  simp only [opcodes, List.mem_cons, List.not_mem_nil, or_false, not_or] at h
  simp [dispatchEntry, h]

end

theorem onChannel_rxReadable_of_nil {s : State} (h : s.rxChan = []) : (onChannel s).rxReadable = false := by simp [h]

theorem onChannel_rxReadable_of_cons {s : State} {b : Byte} {rest : List Byte} (h : s.rxChan = b :: rest) :
    (onChannel s).rxReadable = true := by simp [h]

theorem onChannel_rxData_of_cons {s : State} {b : Byte} {rest : List Byte} (h : s.rxChan = b :: rest) :
    (onChannel s).rxData = b := by simp [h]

/-! ### A wait for a host byte (rules R111, R114) -/

section
variable {s : State}

/-- Every state that awaits a byte holds while none is presented. -/
theorem dispRule_hold_of_awaitsByte {v : Seen} {c : Control} (h : Channels.AwaitsByte c) (hr : v.rxReadable = false) :
    dispRule v c = setCtl c := by
  obtain hd | hd | hd | hd | ⟨hd, hp⟩ := h
  · rw [dispRule_idle hd, idleRule_of_not_readable hr]
  · rw [dispRule_fifoWrite hd, fifoWriteRule, awaitByte_of_not_readable hr]
  · rw [dispRule_setTclk hd, setTclkRule, awaitByte_of_not_readable hr]
  · rw [dispRule_setSclk hd, setSclkRule, awaitByte_of_not_readable hr]
  · rw [dispRule_readbackArg hd hp, readbackArgRule, awaitByte_of_not_readable hr]

theorem step_moves_of_awaitsByte (hrst : s.now.rst = false) (h : Channels.AwaitsByte s.ctl) (hrx : s.rxChan = []) :
    Moves s s.ctl (step s) :=
  step_moves_of_setCtl hrst (dispRule_hold_of_awaitsByte h (onChannel_rxReadable_of_nil hrx))

variable {b : Byte} {rest : List Byte} {act : Byte → Control}

/-- An argument wait takes the presented byte and acts on that byte in the same cycle. -/
theorem step_movesTaking_of_awaitByte (hrst : s.now.rst = false) (hrx : s.rxChan = b :: rest)
    (hrule : dispRule (onChannel s) s.ctl = awaitByte act (onChannel s) s.ctl) : MovesTaking s (act b) (step s) := by
  rw [awaitByte_of_readable (onChannel_rxReadable_of_cons hrx), onChannel_rxData_of_cons hrx] at hrule
  exact step_movesTaking_of_rxTake hrst hrule

end

/-- Settles O18: IDLE is a wait for a byte, and `idleRule` says what it does with one. -/
theorem idleTakesOneCommandByte : Obligations.IdleTakesOneCommandByte := by
  intro s hrst hd
  refine ⟨fun b rest hrx => step_movesTaking_of_rxTake hrst ?_, step_moves_of_awaitsByte hrst (.inl hd)⟩
  rw [dispRule_idle hd, idleRule_of_readable (onChannel_rxReadable_of_cons hrx), onChannel_rxData_of_cons hrx]

/-- Settles O19: the registers of the statement are `dispatchEntry` with the opcodes and the reply byte written as
numbers, and DISPATCH does nothing but enter them. -/
theorem dispatchSelectsTheBranch : Obligations.DispatchSelectsTheBranch :=
  fun _ hrst hd => step_moves_of_setCtl hrst (dispRule_dispatch hd)

/-! ### What each argument wait makes of its byte (rules R141, R142, R171, R172) -/

section
variable {s : State} {b : Byte} {rest : List Byte}

theorem step_takes_of_fifoWrite (hrst : s.now.rst = false) (hrx : s.rxChan = b :: rest) (hd : s.ctl.disp = .fifoWrite) :
    MovesTaking s
      (if fifoFull s.params.outDepth s.ctl.fifoOut then answer replyFull s.ctl
        else answer replyDone { s.ctl with fifoOut := push s.ctl.fifoOut b })
      (step s) :=
  step_movesTaking_of_awaitByte hrst hrx (dispRule_fifoWrite hd)

theorem step_takes_of_setTclk (hrst : s.now.rst = false) (hrx : s.rxChan = b :: rest) (hd : s.ctl.disp = .setTclk) :
    MovesTaking s (answer replyDone { s.ctl with tclkDiv := b }) (step s) :=
  step_movesTaking_of_awaitByte hrst hrx (dispRule_setTclk hd)

theorem step_takes_of_setSclk (hrst : s.now.rst = false) (hrx : s.rxChan = b :: rest) (hd : s.ctl.disp = .setSclk) :
    MovesTaking s
      (if s.ctl.idx = 0 then { s.ctl with arg := setArgByte s.ctl.arg 0 b, idx := 1 }
        else answer replyDone { s.ctl with sclkDiv := dividerOf b s.ctl.arg })
      (step s) :=
  step_movesTaking_of_awaitByte hrst hrx (dispRule_setSclk hd)

theorem step_takes_of_readbackArg (hrst : s.now.rst = false) (hrx : s.rxChan = b :: rest)
    (hd : s.ctl.disp = .fifoReadback) (hp : s.ctl.phase = .arg) :
    MovesTaking s
      (if s.ctl.idx = 3 then { s.ctl with remaining := countOf b s.ctl.arg, phase := .stream }
        else { s.ctl with arg := setArgByte s.ctl.arg s.ctl.idx.toNat b, idx := s.ctl.idx + 1 })
      (step s) :=
  step_movesTaking_of_awaitByte hrst hrx (dispRule_readbackArg hd hp)

end

/-- The four values of a two-bit index. -/
theorem idx_cases (k : BitVec 2) : k = 0 ∨ k = 1 ∨ k = 2 ∨ k = 3 := by
  revert k; decide

/-- Settles O22: each wait by its own lemma; the argument byte `R` writes is the one its index names. -/
theorem argumentWaitsTakeThePresentedByte : Obligations.ArgumentWaitsTakeThePresentedByte := by
  intro s hrst
  refine ⟨fun hwait => step_moves_of_awaitsByte hrst (.inr hwait), fun b rest hrx => ⟨?_, ?_, ?_, ?_⟩⟩
  · intro hd
    have h := step_takes_of_fifoWrite hrst hrx hd
    simp only [Fifos.fifoFull_iff] at h
    exact h
  · exact step_takes_of_setTclk hrst hrx
  · intro hd
    have h := step_takes_of_setSclk hrst hrx hd
    rwa [setArgByte_zero] at h
  · intro hd hp
    have h := step_takes_of_readbackArg hrst hrx hd hp
    obtain hk | hk | hk | hk := idx_cases s.ctl.idx
    · simpa [hk, setArgByte_zero] using h
    · simpa [hk, setArgByte_one] using h
    · simpa [hk, setArgByte_two] using h
    · simpa [hk, countOf] using h

/-! ### Where a branch state leads (rules R113, R119) -/

/-- From `c` to `d` the dispatcher stays in its state or goes to `x`. -/
def LeadsTo (x : Disp) (c d : Control) : Prop := d.disp = c.disp ∨ d.disp = x

section
variable {x : Disp} {v : Seen} {c : Control}

theorem awaitByte_leadsTo {act : Byte → Control} (h : ∀ b, LeadsTo x c (act b)) :
    LeadsTo x c (awaitByte act v c).ctl := by
  cases hr : v.rxReadable with
  | true => rw [awaitByte_of_readable hr]; exact h _
  | false => rw [awaitByte_of_not_readable hr]; exact .inl rfl

/-! The branch states that answer through RESPOND. -/

theorem flushRule_leadsTo : LeadsTo .respond c (flushRule v c).ctl := by
  unfold flushRule
  split
  · exact .inr rfl
  · exact .inl rfl

theorem resetTargetRule_leadsTo : LeadsTo .respond c (resetTargetRule v c).ctl := by
  unfold resetTargetRule
  split
  · exact .inr rfl
  · exact .inl rfl

theorem fifoWriteRule_leadsTo : LeadsTo .respond c (fifoWriteRule v c).ctl :=
  awaitByte_leadsTo fun _ => by split <;> exact .inr rfl

theorem setTclkRule_leadsTo : LeadsTo .respond c (setTclkRule v c).ctl := awaitByte_leadsTo fun _ => .inr rfl

theorem setSclkRule_leadsTo : LeadsTo .respond c (setSclkRule v c).ctl :=
  awaitByte_leadsTo fun _ => by
    split
    · exact .inl rfl
    · exact .inr rfl

/-- Only PREPARE with `OUT` empty leaves SEND_TRANSACTION (rule R152). -/
theorem engineRule_leadsTo : LeadsTo .respond c (engineRule v c).ctl := by
  cases he : c.eng <;> simp only [engineRule, he, setCtl_ctl]
  case eIdle => exact .inl rfl
  case start => exact .inl rfl
  case prepare =>
    unfold prepareRule
    split
    · exact .inr rfl
    · exact .inl rfl
  case waitNotBusy => unfold waitNotBusyRule; split <;> exact .inl rfl
  case clockLow => unfold clockLowRule; split <;> exact .inl rfl
  case clockHigh => unfold clockHighRule; split_ifs <;> exact .inl rfl
  case writeback => unfold writebackRule; split <;> exact .inl rfl

/-! The branch states of `t` and `R`, which send their own bytes (rule R77). -/

theorem timerReportRule_leadsTo : LeadsTo .idle c (timerReportRule v c).ctl := by
  unfold timerReportRule
  split
  · rw [txPut_ctl]
    split
    · exact .inr rfl
    · exact .inl rfl
  · exact .inl rfl

theorem fifoReadbackRule_leadsTo : LeadsTo .idle c (fifoReadbackRule v c).ctl := by
  cases hp : c.phase with
  | arg =>
    simp only [fifoReadbackRule, hp]
    exact awaitByte_leadsTo fun _ => by split <;> exact .inl rfl
  | stream =>
    simp only [fifoReadbackRule, hp, readbackStreamRule]
    split
    · exact .inr rfl
    · split_ifs <;> exact .inl rfl

theorem dispRule_leadsTo_idle (h : c.disp = .timerReport ∨ c.disp = .fifoReadback) :
    LeadsTo .idle c (dispRule v c).ctl := by
  obtain hd | hd := h
  · rw [dispRule, hd]; exact timerReportRule_leadsTo
  · rw [dispRule, hd]; exact fifoReadbackRule_leadsTo

/-- The branch states of all the other commands. -/
def branchesThatAnswer : List Disp :=
  [.respondVersion, .flush, .resetTarget, .fifoWrite, .sendTransaction, .timerStatus, .setTclk, .setSclk]

theorem dispRule_leadsTo_respond (h : c.disp ∈ branchesThatAnswer) : LeadsTo .respond c (dispRule v c).ctl := by
  simp only [branchesThatAnswer, List.mem_cons, List.not_mem_nil, or_false] at h
  obtain hd | hd | hd | hd | hd | hd | hd | hd := h <;> rw [dispRule, hd]
  · exact .inr rfl
  · exact flushRule_leadsTo
  · exact resetTargetRule_leadsTo
  · exact fifoWriteRule_leadsTo
  · exact engineRule_leadsTo
  · exact .inr rfl
  · exact setTclkRule_leadsTo
  · exact setSclkRule_leadsTo

end

/-- Settles O20: RESPOND by `respondRule`, each branch state by where its rule leads, and the unknown byte by DISPATCH's
`otherwise` arm. -/
theorem respondSendsTheReply : Obligations.RespondSendsTheReply := by
  intro s hrst
  have hstep := step_of_running hrst
  refine ⟨fun hd hw => ?_, fun hd hw => ?_, fun hd => ⟨_, hstep, dispRule_leadsTo_idle hd⟩,
    fun h => ⟨_, hstep, ?_⟩⟩
  · exact step_movesSending_of_txPut hrst ((dispRule_respond hd).trans (respondRule_of_writable hw))
  · exact step_moves_of_setCtl hrst ((dispRule_respond hd).trans (respondRule_of_not_writable hw))
  · rw [clockCycle_ctl]
    obtain hd | ⟨hd, hunknown⟩ := h
    · have hne : s.ctl.disp ≠ .dispatch := fun he => by simp [he] at hd
      exact (dispRule_leadsTo_respond hd).imp_left fun hstay => ⟨hstay, hne⟩
    · rw [dispRule_dispatch hd, dispatchEntry_of_unknown hunknown]
      exact .inr rfl

end Sys2Proof.Dispatcher
end

section
/-! PROOFS. Decoder and encoder invert each other (rules R70 to R73), and the length of a command is fixed by its first
byte (rules R78, R79). Everything turns on `encode_instrOf`: the encoding of the command a byte selects is that byte and
as many argument bytes as it asks for. -/

namespace Sys2Proof.Encoding

/-! ### Decoding an encoding -/

/-- Settles O3, by the decoder's lemma for each command; the two wide operands are put together again byte by byte. -/
theorem decodeInvertsEncode : Obligations.DecodeInvertsEncode := by
  intro i rest hw
  cases i
  case version => exact OpcodeMap.decode_version rest
  case flush => exact OpcodeMap.decode_flush rest
  case resetTarget => exact OpcodeMap.decode_resetTarget rest
  case stage a0 => exact Arguments.decode_stage a0 rest
  case transact => exact OpcodeMap.decode_transact rest
  case readback n =>
    have h := Arguments.decode_readback (byteAt n 0) (byteAt n 1) (byteAt n 2) (byteAt n 3) rest
    rwa [le32_byteAt] at h
  case timerReport => exact OpcodeMap.decode_timerReport rest
  case timerStatus => exact OpcodeMap.decode_timerStatus rest
  case setTclk a0 => exact Arguments.decode_setTclk a0 rest
  case setSclk div =>
    have h := Arguments.decode_setSclk (byteAt div 0) (byteAt div 1) rest
    rwa [le16_byteAt] at h
  case unknown b => exact OpcodeMap.decode_unknown rest (by simpa [Instr.wellFormed] using hw)

/-! ### Encoding what was decoded -/

theorem encode_instrOf (op a0 a1 a2 a3 : Byte) :
    encode (instrOf op a0 a1 a2 a3) = op :: [a0, a1, a2, a3].take (argCount op) := by
  obtain h | h | h | h | h | h | h | h | h | h | h := opcode_cases op
  case inr.inr.inr.inr.inr.inr.inr.inr.inr.inr =>
    obtain ⟨hi, hn⟩ := instrOf_unknown h a0 a1 a2 a3
    rw [hi, hn]; rfl
  all_goals subst h; simp [encode]

theorem argCount_le_four (op : Byte) : argCount op ≤ 4 := by
  unfold argCount; split_ifs <;> decide

/-- The first `n ≤ 4` entries of a list that has them. -/
theorem take_getD_four {n : Nat} {l : List Byte} (hn : n ≤ 4) (hl : n ≤ l.length) :
    [l.getD 0 0, l.getD 1 0, l.getD 2 0, l.getD 3 0].take n = l.take n := by
  apply List.ext_getElem
  · simp; omega
  · intro i hi _
    have hi' : i < n := by simp at hi; omega
    have hil : i < l.length := by omega
    have hi4 : i < 4 := by omega
    interval_cases i <;> simp [hil]

/-- What the decoder answers with enough bytes in hand, and that it answers only then. -/
theorem decode_cons_eq_ok_iff {op : Byte} {args rest : List Byte} {i : Instr} :
    decode (op :: args) = .ok (i, rest) ↔
      argCount op ≤ args.length ∧
        i = instrOf op (args.getD 0 0) (args.getD 1 0) (args.getD 2 0) (args.getD 3 0) ∧
        rest = args.drop (argCount op) := by
  by_cases h : args.length < argCount op
  · simp [decode, h]
  · simp only [decode, h, if_false, Except.ok.injEq, Prod.mk.injEq, Nat.not_lt.mp h, true_and]
    tauto

/-- Settles O4: the bytes are the command byte, the arguments it asks for and the rest. -/
theorem encodeInvertsDecode : Obligations.EncodeInvertsDecode := by
  intro bytes rest i h
  cases bytes with
  | nil => simp [decode] at h
  | cons op args =>
    obtain ⟨hlen, rfl, rfl⟩ := decode_cons_eq_ok_iff.mp h
    refine ⟨Machine.instrOf_wellFormed _ _ _ _ _, ?_⟩
    rw [encode_instrOf, take_getD_four (argCount_le_four op) hlen, List.cons_append, List.take_append_drop]

/-! ### The length of a command -/

/-- The statement's length of a command is its command byte and the arguments it asks for. -/
theorem length_eq_argCount (op : Byte) :
    (if op = 0x52 then 5 else if op = 0x53 then 3 else if op = 0x77 ∨ op = 0x73 then 2 else 1) = 1 + argCount op := by
  unfold argCount opReadback opSetSclk opStage opSetTclk
  grind

/-- Settles O5: the decoder tests the length of `argCount`, and nothing else. -/
theorem lengthIsFixedByTheFirstByte : Obligations.LengthIsFixedByTheFirstByte := by
  intro op args
  simp only [length_eq_argCount]
  constructor
  · intro h
    exact ⟨_, by rw [decode, if_pos (by omega)]⟩
  · intro h
    exact ⟨_, decode_cons_eq_ok_iff.mpr ⟨by omega, rfl, by rw [Nat.add_comm, List.drop_succ_cons]⟩⟩

/-- Settles O6: the words are literals, and the decoder runs on each. -/
theorem sampleWordsDecodeAsTheTableSays : Obligations.SampleWordsDecodeAsTheTableSays :=
  ⟨by decide, by decide, by decide, by decide, by decide⟩

end Sys2Proof.Encoding
end

section
/-! PROOFS. What one cycle may make of the control registers, said once for every rule of the dispatcher and the engine
(`dispRule_move`); the statements about paths, about who writes which register and about the block's invariant are read
off it, register by register. -/

namespace Sys2Proof.Moves

open Sys2Proof.Machine Sys2Proof.Safety

/-! ### The moves -/

/-- The registers DISPATCH may leave (rule R112). A branch without entry assignments is told by its command byte. -/
inductive Entry (v : Seen) (c : Control) : Control → Prop where
  | branch (d : Disp) (plain : d ∈ [Disp.respondVersion, .flush, .fifoWrite, .timerStatus, .setTclk])
      (cmd : takenBytes { c with disp := d } = [c.cmd]) : Entry v c { c with disp := d }
  | resetTarget (cmd : c.cmd = opResetTarget) :
      Entry v c
        { c with trstR := true, rstCtr := holdOf v.params (v.params.resetHoldCycles - 1), disp := .resetTarget }
  | transact (cmd : c.cmd = opTransact) : Entry v c { c with eng := .start, disp := .sendTransaction }
  | readback (cmd : c.cmd = opReadback) : Entry v c { c with idx := 0, phase := .arg, disp := .fifoReadback }
  | timerReport (cmd : c.cmd = opTimerReport) :
      Entry v c { c with snap := v.prim.count, idx := 0, disp := .timerReport }
  | setSclk (cmd : c.cmd = opSetSclk) : Entry v c { c with idx := 0, disp := .setSclk }
  | unknown (cmd : c.cmd ∉ opcodes) : Entry v c (answer replyUnknown c)

/-- The registers the engine may leave in a cycle of SEND_TRANSACTION (rules R151 to R156). -/
inductive EngineMove (v : Seen) (c : Control) : Control → Prop where
  | hold : EngineMove v c c
  | start (eng : c.eng = .start) : EngineMove v c { c with bit := 0, eng := .prepare }
  | finish (eng : c.eng = .prepare) : EngineMove v c { answer replyDone c with eng := .eIdle }
  | load (eng : c.eng = .prepare) (b : Byte) (rest : List Byte) :
      EngineMove v c { c with tx := b, fifoOut := rest, eng := .waitNotBusy }
  | firstBit (eng : c.eng = .waitNotBusy) (tick : sclkTick v.prim c = true) : EngineMove v c (startBit 0 c)
  | rise (eng : c.eng = .clockLow) (tick : sclkTick v.prim c = true) :
      EngineMove v c { c with sclkR := true, eng := .clockHigh }
  | lastSample (eng : c.eng = .clockHigh) (b : Byte) : EngineMove v c { c with sr := b, eng := .writeback }
  | nextBit (eng : c.eng = .clockHigh) (tick : sclkTick v.prim c = true) (b : Byte) :
      EngineMove v c (startBit (c.bit + 1) { c with sr := b })
  | store (eng : c.eng = .writeback) (f : List Byte) : EngineMove v c { c with fifoIn := f, eng := .prepare }

/-- The registers a cycle outside reset may leave, by the state the dispatcher starts it in (rule R110). What the FIFOs
hold is said by `Fifos.FifoMove`. -/
inductive Move (v : Seen) (c : Control) : Control → Prop where
  | hold : Move v c c
  | fetch (disp : c.disp = .idle) (readable : v.rxReadable = true) :
      Move v c { c with cmd := v.rxData, disp := .dispatch }
  | enter (disp : c.disp = .dispatch) {d : Control} (entry : Entry v c d) : Move v c d
  | reply (disp : c.disp ∈ [Disp.respondVersion, .flush, .timerStatus]) {b : Byte} (known : b ∈ replies) :
      Move v c (answer b c)
  | flush (disp : c.disp = .flush) (f g : List Byte) : Move v c { c with fifoOut := f, fifoIn := g }
  | countDown (disp : c.disp = .resetTarget) (more : holdDone c.rstCtr = false) :
      Move v c { c with rstCtr := holdNext c.rstCtr }
  | release (disp : c.disp = .resetTarget) : Move v c (answer replyDone { c with trstR := false, sclkR := true })
  | stage (disp : c.disp = .fifoWrite) {b : Byte} (known : b ∈ replies) (f : List Byte) :
      Move v c (answer b { c with fifoOut := f })
  | engine (disp : c.disp = .sendTransaction) {d : Control} (move : EngineMove v c d) : Move v c d
  | countByte (disp : c.disp = .fifoReadback) (a : BitVec 24) (k : BitVec 2) :
      Move v c { c with arg := a, idx := k }
  | countDone (disp : c.disp = .fifoReadback) (n : Word32) : Move v c { c with remaining := n, phase := .stream }
  | stream (disp : c.disp = .fifoReadback) (f : List Byte) (n : Word32) :
      Move v c { c with fifoIn := f, remaining := n }
  | reportByte (disp : c.disp = .timerReport) (k : BitVec 2) : Move v c { c with idx := k }
  | setTclk (disp : c.disp = .setTclk) (b : Byte) : Move v c (answer replyDone { c with tclkDiv := b })
  | sclkLow (disp : c.disp = .setSclk) (a : BitVec 24) : Move v c { c with arg := a, idx := 1 }
  | sclkHigh (disp : c.disp = .setSclk) (high : c.idx ≠ 0) (div : Word16) :
      Move v c (answer replyDone { c with sclkDiv := div })
  | finish (disp : c.disp ∈ [Disp.timerReport, .fifoReadback, .respond]) : Move v c { c with disp := .idle }

section
variable {v : Seen} {c d : Control}

/-! ### Every rule makes one of them -/

/-! The entry assignments of each command byte (rule R112). -/

theorem dispatchEntry_version (h : c.cmd = opVersion) : dispatchEntry v c = { c with disp := .respondVersion } := by
  simp only [dispatchEntry, h]; rfl

theorem dispatchEntry_flush (h : c.cmd = opFlush) : dispatchEntry v c = { c with disp := .flush } := by
  simp only [dispatchEntry, h]; rfl

theorem dispatchEntry_resetTarget (h : c.cmd = opResetTarget) :
    dispatchEntry v c =
      { c with trstR := true, rstCtr := holdOf v.params (v.params.resetHoldCycles - 1), disp := .resetTarget } := by
  simp only [dispatchEntry, h]; rfl

theorem dispatchEntry_stage (h : c.cmd = opStage) : dispatchEntry v c = { c with disp := .fifoWrite } := by
  simp only [dispatchEntry, h]; rfl

theorem dispatchEntry_transact (h : c.cmd = opTransact) :
    dispatchEntry v c = { c with eng := .start, disp := .sendTransaction } := by simp only [dispatchEntry, h]; rfl

theorem dispatchEntry_readback (h : c.cmd = opReadback) :
    dispatchEntry v c = { c with idx := 0, phase := .arg, disp := .fifoReadback } := by
  simp only [dispatchEntry, h]; rfl

theorem dispatchEntry_timerReport (h : c.cmd = opTimerReport) :
    dispatchEntry v c = { c with snap := v.prim.count, idx := 0, disp := .timerReport } := by
  simp only [dispatchEntry, h]; rfl

theorem dispatchEntry_timerStatus (h : c.cmd = opTimerStatus) :
    dispatchEntry v c = { c with disp := .timerStatus } := by simp only [dispatchEntry, h]; rfl

theorem dispatchEntry_setTclk (h : c.cmd = opSetTclk) : dispatchEntry v c = { c with disp := .setTclk } := by
  simp only [dispatchEntry, h]; rfl

theorem dispatchEntry_setSclk (h : c.cmd = opSetSclk) :
    dispatchEntry v c = { c with idx := 0, disp := .setSclk } := by simp only [dispatchEntry, h]; rfl

theorem dispatchEntry_entry (v : Seen) (c : Control) : Entry v c (dispatchEntry v c) := by
  obtain h | h | h | h | h | h | h | h | h | h | h := opcode_cases c.cmd
  · rw [dispatchEntry_version h]; exact .branch _ (by simp) (by rw [h]; rfl)
  · rw [dispatchEntry_flush h]; exact .branch _ (by simp) (by rw [h]; rfl)
  · rw [dispatchEntry_resetTarget h]; exact .resetTarget h
  · rw [dispatchEntry_stage h]; exact .branch _ (by simp) (by rw [h]; rfl)
  · rw [dispatchEntry_transact h]; exact .transact h
  · rw [dispatchEntry_readback h]; exact .readback h
  · rw [dispatchEntry_timerReport h]; exact .timerReport h
  · rw [dispatchEntry_timerStatus h]; exact .branch _ (by simp) (by rw [h]; rfl)
  · rw [dispatchEntry_setTclk h]; exact .branch _ (by simp) (by rw [h]; rfl)
  · rw [dispatchEntry_setSclk h]; exact .setSclk h
  · rw [Dispatcher.dispatchEntry_of_unknown h]; exact .unknown h

theorem engineRule_move (v : Seen) (c : Control) : EngineMove v c (engineRule v c).ctl := by
  cases he : c.eng <;> simp only [engineRule, he, setCtl_ctl]
  case eIdle => exact .hold
  case start => exact .start he
  case prepare =>
    unfold prepareRule
    split
    · exact .finish he
    · exact .load he _ _
  case waitNotBusy =>
    unfold waitNotBusyRule
    split
    next h => exact .firstBit he (by simp at h; exact h.2)
    next => exact .hold
  case clockLow =>
    unfold clockLowRule
    split
    next h => exact .rise he h
    next => exact .hold
  case clockHigh =>
    unfold clockHighRule
    split
    next h =>
      split
      · exact .lastSample he _
      · exact .nextBit he h _
    next => exact .hold
  case writeback =>
    unfold writebackRule
    split
    · exact .hold
    · exact .store he _

theorem awaitByte_move {act : Byte → Control} (h : ∀ b, Move v c (act b)) : Move v c (awaitByte act v c).ctl := by
  cases hr : v.rxReadable with
  | true => rw [awaitByte_of_readable hr]; exact h _
  | false => rw [awaitByte_of_not_readable hr]; exact .hold

theorem readbackArgRule_move (h : c.disp = .fifoReadback) : Move v c (readbackArgRule v c).ctl :=
  awaitByte_move fun b => by
    split
    · exact .countDone h _
    · exact .countByte h _ _

theorem readbackStreamRule_move (h : c.disp = .fifoReadback) : Move v c (readbackStreamRule v c).ctl := by
  unfold readbackStreamRule
  split
  next => exact .finish (c := c) (by simp [h])
  next =>
    split
    next =>
      split
      · exact .stream h c.fifoIn _
      · exact .stream h _ _
    next => exact .hold

theorem fifoReadbackRule_move (h : c.disp = .fifoReadback) : Move v c (fifoReadbackRule v c).ctl := by
  cases hp : c.phase with
  | arg => simp only [fifoReadbackRule, hp]; exact readbackArgRule_move h
  | stream => simp only [fifoReadbackRule, hp]; exact readbackStreamRule_move h

/-- The rule of every dispatcher state makes one of the moves. -/
theorem dispRule_move (v : Seen) (c : Control) : Move v c (dispRule v c).ctl := by
  cases h : c.disp <;> simp only [dispRule, h]
  case idle =>
    cases hr : v.rxReadable with
    | true => rw [idleRule_of_readable hr]; exact .fetch h hr
    | false => rw [idleRule_of_not_readable hr]; exact .hold
  case dispatch => exact .enter h (dispatchEntry_entry v c)
  case respondVersion => exact .reply (by simp [h]) (by simp [replies])
  case flush =>
    unfold flushRule
    split
    · exact .reply (by simp [h]) (by simp [replies])
    · exact .flush h _ _
  case resetTarget =>
    unfold resetTargetRule
    split
    next => exact .release h
    next hmore => exact .countDown h (by simpa using hmore)
  case fifoWrite =>
    refine awaitByte_move fun b => ?_
    split
    · exact .stage h (by simp [replies]) c.fifoOut
    · exact .stage h (by simp [replies]) _
  case sendTransaction => exact .engine h (engineRule_move v c)
  case fifoReadback => exact fifoReadbackRule_move h
  case timerReport =>
    unfold timerReportRule
    split
    next =>
      rw [txPut_ctl]
      split
      · exact .finish (by simp [h])
      · exact .reportByte h _
    next => exact .hold
  case timerStatus => exact .reply (by simp [h]) (by split <;> simp [replies])
  case setTclk => exact awaitByte_move fun b => .setTclk h b
  case setSclk =>
    refine awaitByte_move fun b => ?_
    split
    next => exact .sclkLow h _
    next hhigh => exact .sclkHigh h hhigh _
  case respond =>
    unfold respondRule
    split
    · exact .finish (by simp [h])
    · exact .hold

end

theorem step_move {s t : State} (hrst : s.now.rst = false) (h : step s = .next t) :
    Move (onChannel s) s.ctl t.ctl := by
  rw [step_of_running hrst] at h
  cases h
  exact dispRule_move (onChannel s) s.ctl

end Sys2Proof.Moves
end

section
/-! PROOFS. What is read off the moves: the dispatcher's paths, who writes which register, and the block's invariant,
one part of it at a time. -/

namespace Sys2Proof.Moves

open Sys2Proof.Machine Sys2Proof.Safety

/-! ### The paths of the commands (rules R110, R117, R119) -/

section
variable {v : Seen} {c d : Control}

/-- DISPATCH goes to the branch of the command byte, and to RESPOND exactly for an unknown one. -/
theorem Entry.path (h : Entry v c d) :
    d.disp ≠ .idle ∧ (d.disp = .respond ↔ c.cmd ∉ opcodes) ∧ (d.disp ≠ .respond → takenBytes d = [c.cmd]) := by
  cases h
  case branch x plain cmd =>
    have hop : c.cmd ∈ opcodes := by
      simp only [List.mem_cons, List.not_mem_nil, or_false] at plain
      obtain rfl | rfl | rfl | rfl | rfl := plain <;>
        simp only [takenBytes, List.cons.injEq, and_true] at cmd <;> simp [opcodes, ← cmd]
    refine ⟨fun hx => by simp_all, ⟨fun hx => by simp_all, fun hx => (hx hop).elim⟩, fun _ => cmd⟩
  case unknown cmd => exact ⟨by simp, ⟨fun _ => cmd, fun _ => rfl⟩, fun hx => (hx rfl).elim⟩
  all_goals next cmd => simp [takenBytes, cmd, opcodes]

/-- The engine stays in SEND_TRANSACTION until it answers. -/
theorem EngineMove.path (h : EngineMove v c d) : d.disp = c.disp ∨ d.disp = .respond := by
  cases h
  case finish => exact .inr rfl
  all_goals exact .inl rfl

/-- The branch states that answer at once are among those that answer. -/
theorem mem_branchesThatAnswer {x : Disp} (h : x ∈ [Disp.respondVersion, .flush, .timerStatus]) :
    x ∈ Dispatcher.branchesThatAnswer := by
  simp only [Dispatcher.branchesThatAnswer, List.mem_cons, List.not_mem_nil, or_false] at h ⊢
  tauto

/-- Every change of the dispatcher's state is one step on a command's path. -/
theorem Move.path (h : Move v c d) (hne : d.disp ≠ c.disp) :
    (c.disp = .idle ∧ d.disp = .dispatch) ∨
    (c.disp = .dispatch ∧ d.disp ≠ .idle ∧ (d.disp = .respond ↔ c.cmd ∉ opcodes) ∧
      (d.disp ≠ .respond → takenBytes d = [c.cmd])) ∨
    (c.disp ∈ Dispatcher.branchesThatAnswer ∧ d.disp = .respond) ∨
    (c.disp ∈ [Disp.timerReport, .fifoReadback, .respond] ∧ d.disp = .idle) := by
  cases h
  case fetch disp _ => exact .inl ⟨disp, rfl⟩
  case enter disp entry => exact .inr (.inl ⟨disp, entry.path⟩)
  case engine disp move =>
    exact .inr (.inr (.inl ⟨by simp [Dispatcher.branchesThatAnswer, disp], move.path.resolve_left hne⟩))
  case finish disp => exact .inr (.inr (.inr ⟨disp, rfl⟩))
  case reply disp b known =>
    exact .inr (.inr (.inl ⟨mem_branchesThatAnswer disp, rfl⟩))
  case release disp | stage disp _ _ _ | setTclk disp _ | sclkHigh disp _ _ =>
    exact .inr (.inr (.inl ⟨by simp [Dispatcher.branchesThatAnswer, disp], rfl⟩))
  all_goals exact (hne rfl).elim

end

/-- Settles O21, by the moves that change the dispatcher's state. -/
theorem everyCommandFollowsItsPath : Obligations.EveryCommandFollowsItsPath :=
  fun _ _ hrst h hne => (step_move hrst h).path hne

/-- Settles O25: a step that takes a byte is the taking case of what a step may do to the channels. -/
theorem hostBytesAreTakenOnlyWhereTheyAreAwaited : Obligations.HostBytesAreTakenOnlyWhereTheyAreAwaited := by
  intro s t h hack
  obtain ⟨hout, -, -⟩ | ⟨hrst, -, hawaits, -⟩ | ⟨-, -, b, hout, -, -⟩ := Channels.step_transfer_cases h
  · simp [hout] at hack
  · exact ⟨hrst, hawaits⟩
  · simp [hout] at hack

/-! ### Who writes which register (rules R26 to R28, R31, R32, R36, R37, R43, R44) -/

section
variable {v : Seen} {c d : Control}

theorem Move.cmd_eq_or (h : Move v c d) : d.cmd = c.cmd ∨ (c.disp = .idle ∧ v.rxReadable = true) := by
  cases h
  case fetch disp readable => exact .inr ⟨disp, readable⟩
  case enter entry => cases entry <;> exact .inl rfl
  case engine move => cases move <;> exact .inl rfl
  all_goals exact .inl rfl

/-- Whoever writes the reply goes to RESPOND with it. -/
theorem Move.resp_eq_or (h : Move v c d) : d.resp = c.resp ∨ (d.disp = .respond ∧ c.disp ≠ .respond) := by
  cases h
  case enter disp entry =>
    cases entry
    case unknown => exact .inr ⟨rfl, by simp [disp]⟩
    all_goals exact .inl rfl
  case engine disp move =>
    cases move
    case finish => exact .inr ⟨rfl, by simp [disp]⟩
    all_goals exact .inl rfl
  case reply disp _ _ => exact .inr ⟨rfl, fun hr => by simp [hr] at disp⟩
  case release disp | stage disp _ _ _ | setTclk disp _ | sclkHigh disp _ _ => exact .inr ⟨rfl, by simp [disp]⟩
  all_goals exact .inl rfl

theorem Move.phase_eq_or (h : Move v c d) : d.phase = c.phase ∨ c.disp = .dispatch ∨ c.disp = .fifoReadback := by
  cases h
  case enter disp _ => exact .inr (.inl disp)
  case countDone disp _ => exact .inr (.inr disp)
  case engine move => cases move <;> exact .inl rfl
  all_goals exact .inl rfl

theorem Move.remaining_eq_or (h : Move v c d) : d.remaining = c.remaining ∨ c.disp = .fifoReadback := by
  cases h
  case countDone disp _ | stream disp _ _ => exact .inr disp
  case enter entry => cases entry <;> exact .inl rfl
  case engine move => cases move <;> exact .inl rfl
  all_goals exact .inl rfl

theorem Move.snap_eq_or (h : Move v c d) :
    d.snap = c.snap ∨ (c.disp = .dispatch ∧ c.cmd = opTimerReport ∧ d.snap = v.prim.count) := by
  cases h
  case enter disp entry =>
    cases entry
    case timerReport cmd => exact .inr ⟨disp, cmd, rfl⟩
    all_goals exact .inl rfl
  case engine move => cases move <;> exact .inl rfl
  all_goals exact .inl rfl

theorem Move.tclkDiv_eq_or (h : Move v c d) : d.tclkDiv = c.tclkDiv ∨ c.disp = .setTclk := by
  cases h
  case setTclk disp _ => exact .inr disp
  case enter entry => cases entry <;> exact .inl rfl
  case engine move => cases move <;> exact .inl rfl
  all_goals exact .inl rfl

theorem Move.sclkDiv_eq_or (h : Move v c d) : d.sclkDiv = c.sclkDiv ∨ (c.disp = .setSclk ∧ c.idx ≠ 0) := by
  cases h
  case sclkHigh disp high _ => exact .inr ⟨disp, high⟩
  case enter entry => cases entry <;> exact .inl rfl
  case engine move => cases move <;> exact .inl rfl
  all_goals exact .inl rfl

theorem Move.trstR_eq_or (h : Move v c d) :
    d.trstR = c.trstR ∨ (c.disp = .dispatch ∧ c.cmd = opResetTarget) ∨ c.disp = .resetTarget := by
  cases h
  case enter disp entry =>
    cases entry
    case resetTarget cmd => exact .inr (.inl ⟨disp, cmd⟩)
    all_goals exact .inl rfl
  case release disp => exact .inr (.inr disp)
  case engine move => cases move <;> exact .inl rfl
  all_goals exact .inl rfl

theorem Move.sclkR_eq_or (h : Move v c d) :
    d.sclkR = c.sclkR ∨ c.disp = .resetTarget ∨ (c.disp = .sendTransaction ∧ sclkTick v.prim c = true) := by
  cases h
  case release disp => exact .inr (.inl disp)
  case engine disp move =>
    cases move
    case firstBit tick | rise tick | nextBit tick _ => exact .inr (.inr ⟨disp, tick⟩)
    all_goals exact .inl rfl
  case enter entry => cases entry <;> exact .inl rfl
  all_goals exact .inl rfl

theorem Move.txdR_eq_or (h : Move v c d) :
    d.txdR = c.txdR ∨ (c.disp = .sendTransaction ∧ d.eng = .clockLow ∧ c.eng ≠ .clockLow) := by
  cases h
  case engine disp move =>
    cases move
    case firstBit eng _ | nextBit eng _ _ => exact .inr ⟨disp, rfl, by simp [eng]⟩
    all_goals exact .inl rfl
  case enter entry => cases entry <;> exact .inl rfl
  all_goals exact .inl rfl

end

/-- Settles O60, register by register. -/
theorem registersAreWrittenOnlyByTheirRules : Obligations.RegistersAreWrittenOnlyByTheirRules := by
  intro s t hrst h
  have hm := step_move hrst h
  have hp : t.params = s.params := by
    rw [step_of_running hrst] at h
    cases h
    rfl
  refine ⟨hp, fun hne => ?_, hm.resp_eq_or.resolve_left, hm.phase_eq_or.resolve_left,
    hm.remaining_eq_or.resolve_left, hm.snap_eq_or.resolve_left, hm.tclkDiv_eq_or.resolve_left,
    hm.sclkDiv_eq_or.resolve_left, hm.trstR_eq_or.resolve_left, fun hne => ?_, hm.txdR_eq_or.resolve_left⟩
  · obtain ⟨hd, hr⟩ := hm.cmd_eq_or.resolve_left hne
    exact ⟨hd, by simpa using hr⟩
  · exact (hm.sclkR_eq_or.resolve_left hne).imp_right fun ⟨hd, htick⟩ => ⟨hd, dividerTick_iff.mp htick⟩

/-! ### The block's invariant, part by part -/

/-- The hold counter's part (rule R33). -/
structure HoldInv (p : Params) (h : HoldCounter) : Prop where
  width : h.width = holdWidth p
  range : holdNat h < p.resetHoldCycles

/-- The engine's part: it runs exactly in SEND_TRANSACTION, and what its two lines carry (rules R34, R43, R154). -/
structure EngineInv (c : Control) : Prop where
  running : c.eng = .eIdle ↔ c.disp ≠ .sendTransaction
  clock : c.sclkR = false ↔ c.eng = .clockLow
  data : c.eng = .clockLow ∨ c.eng = .clockHigh → c.txdR = c.tx.getLsbD c.bit.toNat

/-- The dispatcher's part: the registers that fit its state (rules R27, R76, R119, R170, R172). -/
structure PathInv (c : Control) : Prop where
  reset : c.trstR = true ↔ c.disp = .resetTarget
  cmd : cmdMatches c = true
  index : c.disp = .setSclk → c.idx = 0 ∨ c.idx = 1
  resp : c.disp = .respond → c.resp ∈ replies

theorem controlInv_iff {p : Params} {c : Control} :
    ControlInv p c ↔ c.fifoOut.length ≤ p.outDepth ∧ c.fifoIn.length ≤ p.inDepth ∧ HoldInv p c.rstCtr ∧
      EngineInv c ∧ PathInv c := by
  constructor
  · rintro ⟨hout, hin, hw, hr, he, hs, htx, ht, hc, hi, ha⟩
    exact ⟨hout, hin, ⟨hw, hr⟩, ⟨he, hs, htx⟩, ⟨ht, hc, hi, ha⟩⟩
  · rintro ⟨hout, hin, ⟨hw, hr⟩, ⟨he, hs, htx⟩, ⟨ht, hc, hi, ha⟩⟩
    exact ⟨hout, hin, hw, hr, he, hs, htx, ht, hc, hi, ha⟩

/-- `holdWidth` has room for the value DISPATCH loads. -/
theorem lt_two_pow_holdWidth (p : Params) : p.resetHoldCycles - 1 < 2 ^ holdWidth p := Nat.lt_log2_self

theorem holdInv_holdOf {p : Params} {n : Nat} (h : n < p.resetHoldCycles) : HoldInv p (holdOf p n) := by
  have hn : n < 2 ^ holdWidth p := by have := lt_two_pow_holdWidth p; omega
  exact ⟨rfl, by rwa [holdNat_holdOf hn]⟩

section
variable {v : Seen} {c d : Control}

theorem Move.rstCtr_cases (h : Move v c d) :
    d.rstCtr = c.rstCtr ∨ d.rstCtr = holdOf v.params (v.params.resetHoldCycles - 1) ∨
      (holdDone c.rstCtr = false ∧ d.rstCtr = holdNext c.rstCtr) := by
  cases h
  case enter entry =>
    cases entry
    case resetTarget => exact .inr (.inl rfl)
    all_goals exact .inl rfl
  case countDown more => exact .inr (.inr ⟨more, rfl⟩)
  case engine move => cases move <;> exact .inl rfl
  all_goals exact .inl rfl

theorem Move.holdInv (h : Move v c d) (hpos : 1 ≤ v.params.resetHoldCycles) (hi : HoldInv v.params c.rstCtr) :
    HoldInv v.params d.rstCtr := by
  obtain he | he | ⟨hmore, he⟩ := h.rstCtr_cases <;> rw [he]
  · exact hi
  · exact holdInv_holdOf (by omega)
  · exact ⟨hi.width, by have := hi.range; rw [holdNat_holdNext hmore]; omega⟩

/-- The engine's part is kept where the engine's registers are left alone. -/
theorem EngineInv.congr (hi : EngineInv c) (hd : d.disp = .sendTransaction ↔ c.disp = .sendTransaction)
    (he : d.eng = c.eng) (hs : d.sclkR = c.sclkR) (hx : d.txdR = c.txdR) (ht : d.tx = c.tx) (hb : d.bit = c.bit) :
    EngineInv d :=
  ⟨by rw [he, hi.running, ne_eq, ne_eq, hd], by rw [hs, he]; exact hi.clock,
    by rw [he, hx, ht, hb]; exact hi.data⟩

/-- Outside SEND_TRANSACTION the engine is idle and the serial clock high. -/
theorem EngineInv.idle (hi : EngineInv c) (hd : c.disp ≠ .sendTransaction) : c.eng = .eIdle ∧ c.sclkR = true := by
  have he := hi.running.mpr hd
  exact ⟨he, by simpa [he] using hi.clock⟩

theorem EngineMove.engineInv (h : EngineMove v c d) (hd : c.disp = .sendTransaction) (hi : EngineInv c) :
    EngineInv d := by
  have hclock := hi.clock
  cases h
  case hold => exact hi
  case start eng => exact ⟨by simp [hd], by simp [hclock, eng], by simp⟩
  case finish eng => exact ⟨by simp, by simp [hclock, eng], by simp⟩
  case load eng _ _ => exact ⟨by simp [hd], by simp [hclock, eng], by simp⟩
  case firstBit => exact ⟨by simp [hd], by simp, fun _ => rfl⟩
  case rise eng _ => exact ⟨by simp [hd], by simp, fun _ => hi.data (.inl eng)⟩
  case lastSample eng _ => exact ⟨by simp [hd], by simp [hclock, eng], by simp⟩
  case nextBit => exact ⟨by simp [hd], by simp, fun _ => rfl⟩
  case store eng _ => exact ⟨by simp [hd], by simp [hclock, eng], by simp⟩

theorem Entry.engineInv (h : Entry v c d) (hd : c.disp = .dispatch) (hi : EngineInv c) : EngineInv d := by
  cases h
  case transact =>
    have hs := (hi.idle (by simp [hd])).2
    exact ⟨by simp, by simp [hs], by simp⟩
  case branch x plain _ =>
    have hx : x ≠ .sendTransaction := fun hx => by simp [hx] at plain
    exact hi.congr (by simp [hd, hx]) rfl rfl rfl rfl rfl
  all_goals exact hi.congr (by simp [hd]) rfl rfl rfl rfl rfl

theorem Move.engineInv (h : Move v c d) (hi : EngineInv c) : EngineInv d := by
  cases h
  case hold => exact hi
  case enter disp entry => exact entry.engineInv disp hi
  case engine disp move => exact move.engineInv disp hi
  case release disp =>
    obtain ⟨he, hs⟩ := hi.idle (by simp [disp])
    exact hi.congr (by simp [disp]) rfl hs.symm rfl rfl rfl
  case reply disp _ _ | finish disp =>
    have hd : c.disp ≠ .sendTransaction := fun hd => by simp [hd] at disp
    exact hi.congr (by simp [hd]) rfl rfl rfl rfl rfl
  case fetch disp _ | setTclk disp _ | sclkHigh disp _ _ | stage disp _ _ _ =>
    exact hi.congr (by simp [disp]) rfl rfl rfl rfl rfl
  all_goals exact hi.congr Iff.rfl rfl rfl rfl rfl rfl

/-- The dispatcher's part is kept where the dispatcher stays and these registers are left alone. -/
theorem PathInv.congr (hi : PathInv c) (hd : d.disp = c.disp) (ht : d.trstR = c.trstR) (hc : d.cmd = c.cmd)
    (hk : d.idx = c.idx ∨ c.disp ≠ .setSclk) (ha : d.resp = c.resp ∨ c.disp ≠ .respond) : PathInv d := by
  refine ⟨by rw [ht, hd, hi.reset], by simpa only [cmdMatches, hd, hc] using hi.cmd, fun h => ?_, fun h => ?_⟩
  · rw [hd] at h
    rw [hk.resolve_right (fun hne => hne h)]
    exact hi.index h
  · rw [hd] at h
    rw [ha.resolve_right (fun hne => hne h)]
    exact hi.resp h

/-- Going to RESPOND with one of the replies, the target's reset released, keeps the dispatcher's part. -/
theorem PathInv.respond (hd : d.disp = .respond) (ht : d.trstR = false) (ha : d.resp ∈ replies)
    (hc : d.cmd ≠ opTimerReport ∧ d.cmd ≠ opReadback) : PathInv d :=
  ⟨by simp [hd, ht], by simp [cmdMatches, hd, hc], fun h => by simp [hd] at h, fun _ => ha⟩

/-- In a branch state that answers, the command byte is not the one of `t` or `R`. -/
theorem PathInv.cmd_of_branch (hi : PathInv c) (hd : c.disp ∈ Dispatcher.branchesThatAnswer) :
    c.cmd ≠ opTimerReport ∧ c.cmd ≠ opReadback := by
  have hc := hi.cmd
  simp only [Dispatcher.branchesThatAnswer, List.mem_cons, List.not_mem_nil, or_false] at hd
  obtain hd | hd | hd | hd | hd | hd | hd | hd := hd <;>
    simp only [cmdMatches, hd, beq_iff_eq] at hc <;> rw [hc] <;> decide

theorem PathInv.trstR_of_ne (hi : PathInv c) (hd : c.disp ≠ .resetTarget) : c.trstR = false := by
  rw [← Bool.not_eq_true, hi.reset]
  exact hd

theorem Entry.pathInv (h : Entry v c d) (hd : c.disp = .dispatch) (hi : PathInv c) : PathInv d := by
  have ht := hi.trstR_of_ne (by simp [hd])
  cases h
  case branch x plain cmd =>
    simp only [List.mem_cons, List.not_mem_nil, or_false] at plain
    obtain rfl | rfl | rfl | rfl | rfl := plain <;>
      simp only [takenBytes, List.cons.injEq, and_true] at cmd <;>
      exact ⟨by simp [ht], by simp [cmdMatches, ← cmd], by simp, by simp⟩
  case unknown cmd =>
    refine .respond rfl ht (by simp [replies]) ⟨fun h => cmd ?_, fun h => cmd ?_⟩ <;> rw [answer_cmd] at h
    · simp [h, opcodes]
    · simp [h, opcodes]
  all_goals next cmd => exact ⟨by simp [ht], by simp [cmdMatches, cmd], by simp, by simp⟩

theorem EngineMove.pathInv (h : EngineMove v c d) (hd : c.disp = .sendTransaction) (hi : PathInv c) : PathInv d := by
  cases h
  case finish =>
    exact .respond rfl (hi.trstR_of_ne (by simp [hd])) (by simp [replies])
      (hi.cmd_of_branch (by simp [Dispatcher.branchesThatAnswer, hd]))
  all_goals exact hi.congr rfl rfl rfl (.inl rfl) (.inl rfl)

theorem Move.pathInv (h : Move v c d) (hi : PathInv c) : PathInv d := by
  have hbranch := hi.cmd_of_branch
  have htrst := hi.trstR_of_ne
  cases h
  case hold => exact hi
  case fetch disp _ => exact ⟨by simp [htrst, disp], rfl, by simp, by simp⟩
  case enter disp entry => exact entry.pathInv disp hi
  case engine disp move => exact move.pathInv disp hi
  case finish disp =>
    exact ⟨by simp [htrst fun hd => by simp [hd] at disp], rfl, by simp, by simp⟩
  case reply disp b known =>
    have hne : c.disp ≠ .resetTarget := fun hd => by simp [hd] at disp
    exact .respond rfl (htrst hne) known (hbranch (mem_branchesThatAnswer disp))
  case release disp =>
    exact .respond rfl rfl (by simp [replies]) (hbranch (by simp [Dispatcher.branchesThatAnswer, disp]))
  case stage disp b known _ =>
    exact .respond rfl (htrst (by simp [disp])) known (hbranch (by simp [Dispatcher.branchesThatAnswer, disp]))
  case setTclk disp _ | sclkHigh disp _ _ =>
    exact .respond rfl (htrst (by simp [disp])) (by simp [replies])
      (hbranch (by simp [Dispatcher.branchesThatAnswer, disp]))
  case sclkLow disp _ => exact ⟨hi.reset, hi.cmd, fun _ => .inr rfl, fun hr => by simp [disp] at hr⟩
  case countByte disp _ _ | reportByte disp _ =>
    exact hi.congr rfl rfl rfl (.inr (by simp [disp])) (.inl rfl)
  all_goals exact hi.congr rfl rfl rfl (.inl rfl) (.inl rfl)

end

/-! ### The whole invariant -/

theorem fifoOut_length_le {v : Seen} {c : Control} {f : List Byte} (h : Fifos.OutChange v c f)
    (hi : c.fifoOut.length ≤ v.params.outDepth) : f.length ≤ v.params.outDepth := by
  cases h with
  | keep => exact hi
  | push state room readable => rw [List.length_append, List.length_singleton]; omega
  | pop state content => rw [content, List.length_cons] at hi; omega

theorem fifoIn_length_le {v : Seen} {c : Control} {f : List Byte} (h : Fifos.InChange v c f)
    (hi : c.fifoIn.length ≤ v.params.inDepth) : f.length ≤ v.params.inDepth := by
  cases h with
  | keep => exact hi
  | push state room => rw [List.length_append, List.length_singleton]; omega
  | pop state content => rw [content, List.length_cons] at hi; omega

theorem wf_iff {p : Params} :
    p.wf = true ↔ 1 ≤ p.outDepth ∧ 1 ≤ p.inDepth ∧ 1 ≤ p.resetHoldCycles ∧ 0 < p.fSys := by
  simp only [Params.wf, Bool.and_eq_true, decide_eq_true_eq, and_assoc]

theorem resetHoldCycles_pos {p : Params} (h : p.wf = true) : 1 ≤ p.resetHoldCycles := by
  obtain ⟨-, -, h, -⟩ := wf_iff.mp h
  exact h

/-- The reset values meet the invariant, whatever the parameters (rule R201). -/
theorem controlInv_reset {p : Params} (h : p.wf = true) : ControlInv p (Control.reset p) :=
  controlInv_iff.mpr ⟨Nat.zero_le _, Nat.zero_le _, holdInv_holdOf (resetHoldCycles_pos h),
    ⟨by simp [Control.reset], by simp [Control.reset], by simp [Control.reset]⟩,
    ⟨by simp [Control.reset], rfl, by simp [Control.reset], by simp [Control.reset]⟩⟩

theorem dispRule_controlInv {v : Seen} {c : Control} (hp : v.params.wf = true) (h : ControlInv v.params c) :
    ControlInv v.params (dispRule v c).ctl := by
  obtain ⟨hout, hin, hhold, hengine, hpath⟩ := controlInv_iff.mp h
  have hf := Fifos.dispRule_fifoMove v c
  have hm := dispRule_move v c
  exact controlInv_iff.mpr ⟨fifoOut_length_le hf.out hout, fifoIn_length_le hf.inn hin,
    hm.holdInv (resetHoldCycles_pos hp) hhold, hm.engineInv hengine, hm.pathInv hpath⟩

/-- The timer runs exactly while the edge detector's history is high (rule R97). -/
theorem timerNext_running {p : Primitives} (h : p.running = p.busyP) : (timerNext p).2 = p.busyR := by
  obtain ⟨hr, -, -, hn⟩ | ⟨hr, -, hn⟩ | ⟨hnofall, hrun, hn⟩ | ⟨hsame, hrun, hn⟩ := timerNext_cases p <;> rw [hn]
  · exact hr.symm
  · exact hr.symm
  · rw [hrun] at h
    cases hr : p.busyR
    · exact (hnofall ⟨hr, h.symm⟩).elim
    · rfl
  · rw [hsame, ← h, hrun]

/-- Settles O58, by the four things the busy-timer can do. -/
theorem runningFollowsTheEdgeDetector : Obligations.RunningFollowsTheEdgeDetector := by
  intro s t hi h
  obtain ⟨-, rfl⟩ | ⟨-, rfl⟩ := step_next h
  · rfl
  · exact timerNext_running hi

theorem fSys_pos : 0 < Config.fSys := by
  unfold Config.fSys
  positivity

/-- Settles O56: the parameters of the reset state are legal, and the reset values meet the rest. -/
theorem resetMeetsTheInvariant : Obligations.ResetMeetsTheInvariant := by
  have hp : Config.params.wf = true := wf_iff.mpr ⟨by decide, by decide, Nat.le_add_left 1 _, fSys_pos⟩
  exact ⟨hp, controlInv_reset hp, rfl⟩

/-- Settles O57: a reset cycle makes the reset values, any other cycle a move, and the timer keeps its own part. -/
theorem stepKeepsTheInvariant : Obligations.StepKeepsTheInvariant := by
  rintro s t ⟨hp, hc, hrun⟩ h
  refine ⟨?_, ?_, runningFollowsTheEdgeDetector s t hrun h⟩
  all_goals obtain ⟨-, rfl⟩ | ⟨-, rfl⟩ := step_next h
  · exact hp
  · exact hp
  · exact controlInv_reset hp
  · exact dispRule_controlInv (v := onChannel s) hp hc

end Sys2Proof.Moves
end

section
/-! PROOFS. A step is one cycle of the command in hand (rules R110, R114), whichever command agrees with the bytes that
have been taken and presented, and no cycle stops the machine (rule R180). -/

namespace Sys2Proof.InHand

open Sys2Proof.Machine Sys2Proof.Safety

/-- Settles O9: a step and a command's cycle both end in a next state. -/
theorem noCycleStopsTheMachine : Obligations.NoCycleStopsTheMachine :=
  ⟨fun s => ⟨_, step_eq s⟩, fun i s => ⟨_, (exec_eq i s).trans (runCycle_eq _ _ s)⟩⟩

/-! ### The bytes in hand -/

theorem takenBytes_length (c : Control) : (takenBytes c).length = bytesTaken c := by
  unfold takenBytes bytesTaken
  cases c.disp
  case fifoReadback => simp only [List.length_cons, List.length_map, List.length_range, Nat.add_comm]
  case setSclk => dsimp only; split <;> rfl
  all_goals rfl

/-- Two lists of which one goes on where the other ends hold the same byte wherever both have one. -/
theorem getD_eq_of_prefix {l m : List Byte} (h : l <+: m ∨ m <+: l) {k : Nat} (hl : k < l.length) (hm : k < m.length)
    (a b : Byte) : l.getD k a = m.getD k b := by
  rw [List.getD_eq_getElem _ _ hl, List.getD_eq_getElem _ _ hm]
  obtain h | h := h
  · exact h.getElem hl
  · exact (h.getElem hm).symm

theorem length_encode_pos (i : Instr) : 0 < (encode i).length := by
  cases i <;> exact Nat.succ_pos _

/-- The command whose bytes agree with the ones taken has the command byte taken. -/
theorem opcodeOf_of_prefix {i : Instr} {taken rx : List Byte} (h : taken ++ rx <+: encode i ∨ encode i <+: taken ++ rx)
    (ht : 0 < taken.length) : opcodeOf i = taken.headD 0 := by
  have hget := getD_eq_of_prefix h (k := 0) (by simp; omega) (length_encode_pos i) 0 0
  obtain ⟨b, rest, rfl⟩ := List.exists_cons_of_length_pos ht
  obtain ⟨op, args, he⟩ := List.exists_cons_of_length_pos (length_encode_pos i)
  simpa [opcodeOf, he] using hget.symm

/-- A well-formed command is the one its command byte selects. -/
theorem exists_eq_instrOf {i : Instr} (hw : i.wellFormed = true) :
    ∃ a0 a1 a2 a3, i = instrOf (opcodeOf i) a0 a1 a2 a3 := by
  have h := Encoding.decodeInvertsEncode i [] hw
  obtain ⟨op, args, he⟩ := List.exists_cons_of_length_pos (length_encode_pos i)
  rw [he, List.append_nil, Encoding.decode_cons_eq_ok_iff] at h
  obtain ⟨-, hi, -⟩ := h
  have hop : opcodeOf i = op := by rw [opcodeOf, he, List.headD_cons]
  rw [← hop] at hi
  exact ⟨_, _, _, _, hi⟩

/-- In a branch state the command in hand is the one whose branch it is. -/
theorem disp_eq_homeOf {i : Instr} {c : Control} (hw : i.wellFormed = true)
    (hop : opcodeOf i = (takenBytes c).headD 0) (h1 : c.disp ≠ .idle) (h2 : c.disp ≠ .dispatch)
    (h3 : c.disp ≠ .respond) : c.disp = homeOf i := by
  obtain ⟨a0, a1, a2, a3, hi⟩ := exists_eq_instrOf hw
  rw [hi, hop]
  cases hd : c.disp <;> simp only [takenBytes, hd]
  case idle => exact (h1 hd).elim
  case dispatch => exact (h2 hd).elim
  case respond => exact (h3 hd).elim
  case setSclk => split <;> rfl
  all_goals rfl

/-- Every command has a byte for each place at which its states still take one. -/
theorem bytesTaken_lt_length {i : Instr} {c : Control} (hhome : c.disp ≠ .idle → c.disp = homeOf i)
    (hd : c.disp = .idle ∨ c.disp = .fifoWrite ∨ c.disp = .setTclk ∨ c.disp = .setSclk ∨ c.disp = .fifoReadback) :
    bytesTaken c < (encode i).length := by
  have hk := c.idx.isLt
  obtain hd | hd | hd | hd | hd := hd
  · simpa [bytesTaken, hd] using length_encode_pos i
  all_goals
    have hi := hhome (by simp [hd])
    rw [hd] at hi
    cases i <;> simp only [homeOf, reduceCtorEq] at hi
    simp only [bytesTaken, hd, encode, List.length_cons, List.length_nil]
  · omega
  · omega
  · split <;> omega
  · omega

/-- A cycle of any command that agrees with the bytes in hand is a cycle of the dispatcher's rule on what the channel
presents. -/
theorem ruleOf_seen_eq_of_prefix {s : State} {i : Instr} (hw : i.wellFormed = true)
    (h : takenBytes s.ctl ++ s.rxChan <+: encode i ∨ encode i <+: takenBytes s.ctl ++ s.rxChan) :
    ruleOf i (seen (encode i) s) s.ctl = dispRule (onChannel s) s.ctl := by
  by_cases hr : s.ctl.disp = .respond
  · rw [ruleOf_respond hr, dispRule, hr]
    rfl
  have hop (hd : s.ctl.disp ≠ .idle) : opcodeOf i = (takenBytes s.ctl).headD 0 := by
    refine opcodeOf_of_prefix h ?_
    rw [takenBytes_length, bytesTaken]
    cases hc : s.ctl.disp
    case idle => exact (hd hc).elim
    case setSclk => dsimp only; split <;> omega
    all_goals dsimp only; omega
  rw [ruleOf_eq_dispRule hw (fun hd => ?_) (fun h1 h2 h3 => disp_eq_homeOf hw (hop h1) h1 h2 h3)]
  · refine dispRule_congr rfl rfl rfl rfl fun hread hd => ?_
    have hlen := bytesTaken_lt_length (i := i)
      (fun h1 => disp_eq_homeOf hw (hop h1) h1 (fun h2 => by simp [h2] at hd) hr) hd
    obtain ⟨b, rest, hrx⟩ : ∃ b rest, s.rxChan = b :: rest := by cases hx : s.rxChan <;> simp_all
    have hget := getD_eq_of_prefix h (by simp [takenBytes_length, hrx]) hlen 0 (Config.idleRxData s.cycle)
    rw [seen_rxData, ← hget, ← takenBytes_length, hrx]
    simp [hrx]
  · simpa [takenBytes, hd] using (hop (by simp [hd])).symm

/-- Settles O8: in RESPOND every command's rule is RESPOND's; elsewhere the bytes in hand tell the command as far as a
rule reads them. -/
theorem stepNeedsNoByteThatHasNotArrived : Obligations.StepNeedsNoByteThatHasNotArrived := by
  intro s i hw h
  rw [step_eq, exec_eq, runCycle_eq]
  obtain h | h | ⟨hd, -⟩ := h
  · rw [ruleOf_seen_eq_of_prefix hw (.inl h)]
  · rw [ruleOf_seen_eq_of_prefix hw (.inr h)]
  · rw [ruleOf_respond hd, dispRule, hd]
    rfl

/-- Settles O7: the bytes in hand begin with the encoding of what was decoded. -/
theorem stepRunsTheDecodedCommand : Obligations.StepRunsTheDecodedCommand := by
  intro s i rest _ h
  obtain ⟨hw, hbytes⟩ := Encoding.encodeInvertsDecode _ _ _ h
  exact stepNeedsNoByteThatHasNotArrived s i hw (.inr (.inl ⟨rest, hbytes.symm⟩))

end Sys2Proof.InHand
end

section
/-! PROOFS. The rule of each dispatcher and engine state, one equation per case: what the whole-command and one-cycle
statements cite instead of unfolding the rules. -/

namespace Sys2Proof.Rules

open Sys2Proof.Machine

section
variable {v : Seen} {c : Control}

/-! ### Which rule a state runs (rule R110) -/

theorem dispRule_respondVersion (h : c.disp = .respondVersion) : dispRule v c = setCtl (answer replyVersion c) := by
  rw [dispRule, h]; rfl

theorem dispRule_timerStatus (h : c.disp = .timerStatus) :
    dispRule v c = setCtl (answer (if v.prim.running then replyRunning else replyStopped) c) := by
  rw [dispRule, h]; rfl

theorem dispRule_flush (h : c.disp = .flush) : dispRule v c = flushRule v c := by rw [dispRule, h]

theorem dispRule_resetTarget (h : c.disp = .resetTarget) : dispRule v c = resetTargetRule v c := by rw [dispRule, h]

theorem dispRule_timerReport (h : c.disp = .timerReport) : dispRule v c = timerReportRule v c := by rw [dispRule, h]

theorem dispRule_readbackStream (h : c.disp = .fifoReadback) (hp : c.phase = .stream) :
    dispRule v c = readbackStreamRule v c := by rw [dispRule, h]; simp only [fifoReadbackRule, hp]

theorem dispRule_engine (h : c.disp = .sendTransaction) : dispRule v c = engineRule v c := by rw [dispRule, h]

/-- In its branch state a command's rule is the dispatcher's. -/
theorem ruleOf_branch {i : Instr} (h : c.disp = homeOf i) (hr : homeOf i ≠ .respond) :
    ruleOf i v c = dispRule v c := by
  cases i
  case unknown => exact (hr rfl).elim
  all_goals
    simp only [homeOf] at h
    rw [ruleOf, commandRule_home (by decide) (by decide) (by decide) h, dispRule, h]

/-! ### The branch rules (rules R131, R140, R142, R170) -/

theorem flushRule_of_empty (ho : c.fifoOut = []) (hi : c.fifoIn = []) :
    flushRule v c = setCtl (answer replyDone c) := by simp [flushRule, fifoEmpty, ho, hi]

theorem ite_fifoEmpty_pop (f : List Byte) : (if fifoEmpty f then f else pop f) = f.drop 1 := by
  cases f <;> simp [fifoEmpty, pop]

theorem flushRule_of_nonempty (h : c.fifoOut ≠ [] ∨ c.fifoIn ≠ []) :
    flushRule v c = setCtl { c with fifoOut := c.fifoOut.drop 1, fifoIn := c.fifoIn.drop 1 } := by
  have hne : ¬(fifoEmpty c.fifoOut && fifoEmpty c.fifoIn) = true := by
    rw [Bool.and_eq_true, Fifos.fifoEmpty_iff, Fifos.fifoEmpty_iff]
    tauto
  rw [flushRule, if_neg hne, ite_fifoEmpty_pop, ite_fifoEmpty_pop]

theorem resetTargetRule_of_done (h : holdDone c.rstCtr = true) :
    resetTargetRule v c = setCtl (answer replyDone { c with trstR := false, sclkR := true }) := by
  simp [resetTargetRule, h]

theorem resetTargetRule_of_more (h : holdDone c.rstCtr = false) :
    resetTargetRule v c = setCtl { c with rstCtr := holdNext c.rstCtr } := by simp [resetTargetRule, h]

theorem timerReportRule_of_writable (h : v.txWritable = true) :
    timerReportRule v c =
      txPut (byteAt c.snap c.idx.toNat)
        (if c.idx = 3 then { c with disp := .idle } else { c with idx := c.idx + 1 }) := by simp [timerReportRule, h]

theorem timerReportRule_of_not_writable (h : v.txWritable = false) : timerReportRule v c = setCtl c := by
  simp [timerReportRule, h]

theorem readbackStreamRule_of_done (h : c.remaining = 0) :
    readbackStreamRule v c = setCtl { c with disp := .idle } := by simp [readbackStreamRule, h]

/-- The stream sends the head of `IN`, or the filler where there is none. -/
theorem readbackStreamRule_of_writable (h : c.remaining ≠ 0) (hw : v.txWritable = true) :
    readbackStreamRule v c =
      txPut (c.fifoIn.headD filler) { c with fifoIn := c.fifoIn.drop 1, remaining := c.remaining - 1 } := by
  rw [readbackStreamRule, if_neg h, if_pos hw]
  split
  next he =>
    rw [Fifos.fifoEmpty_iff] at he
    simp [he]
  next he =>
    rw [Fifos.fifoEmpty_iff] at he
    obtain ⟨b, rest, hf⟩ := List.exists_cons_of_ne_nil he
    simp [hf, head, pop]

theorem readbackStreamRule_of_not_writable (h : c.remaining ≠ 0) (hw : v.txWritable = false) :
    readbackStreamRule v c = setCtl c := by
  rw [readbackStreamRule, if_neg h, if_neg (by simp [hw])]

/-! ### The engine rule (rules R151 to R156) -/

theorem engineRule_start (h : c.eng = .start) : engineRule v c = setCtl { c with bit := 0, eng := .prepare } := by
  rw [engineRule, h]; rfl

theorem engineRule_prepare_of_empty (h : c.eng = .prepare) (hf : c.fifoOut = []) :
    engineRule v c = setCtl { answer replyDone c with eng := .eIdle } := by
  rw [engineRule, h]; simp [prepareRule, fifoEmpty, hf]

theorem engineRule_prepare_of_cons {b : Byte} {rest : List Byte} (h : c.eng = .prepare) (hf : c.fifoOut = b :: rest) :
    engineRule v c = setCtl { c with tx := b, fifoOut := rest, eng := .waitNotBusy } := by
  rw [engineRule, h]; simp [prepareRule, fifoEmpty, hf, head, pop]

theorem engineRule_waitNotBusy (h : c.eng = .waitNotBusy) :
    engineRule v c =
      setCtl (if v.prim.busyR = false ∧ c.sclkDiv.toNat ≤ v.prim.sclkCtr.toNat then startBit 0 c else c) := by
  rw [engineRule, h]; simp [waitNotBusyRule, sclkTick, dividerTick_iff]

theorem engineRule_clockLow (h : c.eng = .clockLow) :
    engineRule v c =
      setCtl (if c.sclkDiv.toNat ≤ v.prim.sclkCtr.toNat then { c with sclkR := true, eng := .clockHigh } else c) := by
  rw [engineRule, h]; simp [clockLowRule, sclkTick, dividerTick_iff]

theorem engineRule_clockHigh (h : c.eng = .clockHigh) :
    engineRule v c =
      setCtl
        (if c.sclkDiv.toNat ≤ v.prim.sclkCtr.toNat then
          if c.bit = 7 then { c with sr := shiftIn v.prim.rxdR c.sr, eng := .writeback }
          else startBit (c.bit + 1) { c with sr := shiftIn v.prim.rxdR c.sr }
        else c) := by
  simp [engineRule, h, clockHighRule, sclkTick, dividerTick_iff]

theorem engineRule_writeback (h : c.eng = .writeback) :
    engineRule v c =
      setCtl
        (if c.fifoIn.length = v.params.inDepth then c
        else { c with fifoIn := c.fifoIn ++ [c.sr], eng := .prepare }) := by
  rw [engineRule, h]; simp [writebackRule, Fifos.fifoFull_iff, push]

end

end Sys2Proof.Rules
end

section
/-! PROOFS. One cycle of each command (rules R111 to R118, R130 to R132, R140 to R142, R150 to R156, R170 to R172): the
command's rule in its state, by the equations of `Rules`, with the byte it presents. -/

namespace Sys2Proof.OneCycle

open Sys2Proof.Machine Sys2Proof.Safety Sys2Proof.Rules

/-! ### What a command's cycle is, by its rule -/

section
variable {i : Instr} {s : State} {c : Control} {b : Byte} {act : Byte → Control}

theorem exec_moves (h : s.now.rst = false) (hr : ruleOf i (seen (encode i) s) s.ctl = setCtl c) :
    Moves s c (exec i s) := by
  rw [exec_eq]; exact moves_of_setCtl h hr

theorem exec_movesTaking (h : s.now.rst = false) (hr : ruleOf i (seen (encode i) s) s.ctl = rxTake c) :
    MovesTaking s c (exec i s) := by
  rw [exec_eq]; exact movesTaking_of_rxTake h hr

theorem exec_movesSending (h : s.now.rst = false) (hr : ruleOf i (seen (encode i) s) s.ctl = txPut b c) :
    MovesSending b s c (exec i s) := by
  rw [exec_eq]; exact movesSending_of_txPut h hr

/-- The entry assignments of a command, as its rule makes them whatever `cmd` holds (rule R112, notes/assumptions/7). -/
def entryOf (i : Instr) (v : Seen) (c : Control) : Control :=
  match i with
  | .version => { c with disp := .respondVersion }
  | .flush => { c with disp := .flush }
  | .resetTarget =>
    { c with trstR := true, rstCtr := holdOf v.params (v.params.resetHoldCycles - 1), disp := .resetTarget }
  | .stage _ => { c with disp := .fifoWrite }
  | .transact => { c with eng := .start, disp := .sendTransaction }
  | .readback _ => { c with idx := 0, phase := .arg, disp := .fifoReadback }
  | .timerReport => { c with snap := v.prim.count, idx := 0, disp := .timerReport }
  | .timerStatus => { c with disp := .timerStatus }
  | .setTclk _ => { c with disp := .setTclk }
  | .setSclk _ => { c with idx := 0, disp := .setSclk }
  | .unknown _ => answer replyUnknown c

theorem exec_dispatch (h : s.now.rst = false) (hd : s.ctl.disp = .dispatch) :
    Moves s (entryOf i (seen (encode i) s) s.ctl) (exec i s) :=
  exec_moves h (by cases i <;> rw [ruleOf, commandRule_dispatch hd, entryOf])

/-- An argument wait acts on the byte the command presents next. -/
theorem exec_takes_of_awaitByte (h : s.now.rst = false) (hrx : s.rxChan ≠ [])
    (hr : ruleOf i (seen (encode i) s) s.ctl = awaitByte act (seen (encode i) s) s.ctl)
    (hb : (seen (encode i) s).rxData = b) : MovesTaking s (act b) (exec i s) := by
  rw [awaitByte_of_readable (by simp [hrx]), hb] at hr
  exact exec_movesTaking h hr

theorem exec_holds_of_awaitByte (h : s.now.rst = false) (hrx : s.rxChan = [])
    (hr : ruleOf i (seen (encode i) s) s.ctl = awaitByte act (seen (encode i) s) s.ctl) :
    Moves s s.ctl (exec i s) := by
  rw [awaitByte_of_not_readable (by simp [hrx])] at hr
  exact exec_moves h hr

end

/-! ### IDLE and RESPOND -/

/-- Settles O26: in IDLE and RESPOND every command runs the shared rule, and its first byte is its command byte. -/
theorem everyCommandIsTakenAndAnswered : Obligations.EveryCommandIsTakenAndAnswered := by
  intro i s hrst
  refine ⟨fun hd hrx => ?_, fun hd hrx => ?_, fun hd hw => ?_, fun hd hw => ?_⟩
  · have hb : (seen (encode i) s).rxData = opcodeOf i := by
      obtain ⟨op, args, he⟩ := List.exists_cons_of_length_pos (InHand.length_encode_pos i)
      simp [bytesTaken, hd, opcodeOf, he]
    exact exec_movesTaking hrst (by rw [ruleOf_idle hd, idleRule_of_readable (by simp [hrx]), hb])
  · exact exec_moves hrst (by rw [ruleOf_idle hd, idleRule_of_not_readable (by simp [hrx])])
  · exact exec_movesSending hrst (by rw [ruleOf_respond hd, respondRule_of_writable hw])
  · exact exec_moves hrst (by rw [ruleOf_respond hd, respondRule_of_not_writable hw])

/-- Settles O27. -/
theorem unknownCommandAnswersQuestionMark : Obligations.UnknownCommandAnswersQuestionMark :=
  fun _ _ hrst hd => exec_dispatch hrst hd

/-! ### The status commands -/

/-- Settles O28. -/
theorem versionAnswersZeroCharacter : Obligations.VersionAnswersZeroCharacter := fun _ hrst =>
  ⟨exec_dispatch hrst,
    fun hd => exec_moves hrst ((ruleOf_branch hd (by decide)).trans (dispRule_respondVersion hd))⟩

/-- Settles O29, by TIMER_REPORT's rule with the transmit core ready and not. -/
theorem timerReportSendsTheLatchedCount : Obligations.TimerReportSendsTheLatchedCount := by
  intro s hrst
  have hrule (hd : s.ctl.disp = .timerReport) := (ruleOf_branch (i := .timerReport)
    (v := seen (encode .timerReport) s) hd (by decide)).trans (dispRule_timerReport hd)
  exact ⟨exec_dispatch hrst,
    fun hd hw => exec_movesSending hrst ((hrule hd).trans (timerReportRule_of_writable hw)),
    fun hd hw => exec_moves hrst ((hrule hd).trans (timerReportRule_of_not_writable hw))⟩

/-- Settles O30. -/
theorem timerStatusReportsTheRunningFlag : Obligations.TimerStatusReportsTheRunningFlag := fun _ hrst =>
  ⟨exec_dispatch hrst,
    fun hd => exec_moves hrst ((ruleOf_branch hd (by decide)).trans (dispRule_timerStatus hd))⟩

/-! ### The FIFO commands -/

/-- Settles O31, by FLUSH's rule with both FIFOs empty and not. -/
theorem flushDiscardsOneByteOfEachFifo : Obligations.FlushDiscardsOneByteOfEachFifo := by
  intro s hrst
  have hrule (hd : s.ctl.disp = .flush) := (ruleOf_branch (i := .flush)
    (v := seen (encode .flush) s) hd (by decide)).trans (dispRule_flush hd)
  exact ⟨exec_dispatch hrst,
    fun hd ho hi => exec_moves hrst ((hrule hd).trans (flushRule_of_empty ho hi)),
    fun hd hne => exec_moves hrst ((hrule hd).trans (flushRule_of_nonempty hne))⟩

/-- Settles O32: FIFO_WRITE waits for the command's one argument byte. -/
theorem stageStoresOrReportsFull : Obligations.StageStoresOrReportsFull := by
  intro a0 s hrst
  have hrule (hd : s.ctl.disp = .fifoWrite) := (ruleOf_branch (i := .stage a0)
    (v := seen (encode (.stage a0)) s) hd (by simp [homeOf])).trans (Dispatcher.dispRule_fifoWrite hd)
  have htake (hd : s.ctl.disp = .fifoWrite) (hrx : s.rxChan ≠ []) :=
    exec_takes_of_awaitByte (b := a0) hrst hrx (hrule hd) (by simp [bytesTaken, hd, encode])
  simp only [seen_params, Fifos.fifoFull_iff] at htake
  refine ⟨exec_dispatch hrst, fun hd hrx hroom => ?_, fun hd hrx hfull => ?_,
    fun hd hrx => exec_holds_of_awaitByte hrst hrx (hrule hd)⟩
  · have h := htake hd hrx
    rwa [if_neg hroom] at h
  · have h := htake hd hrx
    rwa [if_pos hfull] at h

/-- Settles O33: phase ARG waits for the byte of the count its index names, phase STREAM sends. -/
theorem readbackCollectsItsCountAndStreams : Obligations.ReadbackCollectsItsCountAndStreams := by
  intro n s hrst
  have harg (hd : s.ctl.disp = .fifoReadback) (hp : s.ctl.phase = .arg) := (ruleOf_branch (i := .readback n)
    (v := seen (encode (.readback n)) s) hd (by simp [homeOf])).trans (Dispatcher.dispRule_readbackArg hd hp)
  have hstream (hd : s.ctl.disp = .fifoReadback) (hp : s.ctl.phase = .stream) := (ruleOf_branch (i := .readback n)
    (v := seen (encode (.readback n)) s) hd (by simp [homeOf])).trans (dispRule_readbackStream hd hp)
  refine ⟨exec_dispatch hrst, fun hd hp hrx => ?_, fun hd hp hrx => exec_holds_of_awaitByte hrst hrx (harg hd hp),
    fun hd hp h0 => exec_moves hrst ((hstream hd hp).trans (readbackStreamRule_of_done h0)),
    fun hd hp h0 hw => exec_movesSending hrst ((hstream hd hp).trans (readbackStreamRule_of_writable h0 hw)),
    fun hd hp h0 hw => exec_moves hrst ((hstream hd hp).trans (readbackStreamRule_of_not_writable h0 hw))⟩
  have hbyte : (seen (encode (.readback n)) s).rxData = byteAt n s.ctl.idx.toNat := by
    obtain hk | hk | hk | hk := Dispatcher.idx_cases s.ctl.idx <;> simp [bytesTaken, hd, hk, encode]
  have h := exec_takes_of_awaitByte hrst hrx (harg hd hp) hbyte
  obtain hk | hk | hk | hk := Dispatcher.idx_cases s.ctl.idx
  · simpa [hk, setArgByte_zero, byteAt] using h
  · simpa [hk, setArgByte_one, byteAt] using h
  · simpa [hk, setArgByte_two, byteAt] using h
  · simpa [hk, countOf, byteAt] using h

/-! ### Target control and configuration -/

/-- `rst_ctr` has the least width, at least 1, that holds `RESET_HOLD_CYCLES - 1` (rule R33). -/
theorem holdWidth_le {p : Params} {w : Nat} (hw : 1 ≤ w) (h : p.resetHoldCycles - 1 < 2 ^ w) : holdWidth p ≤ w := by
  unfold holdWidth
  by_cases h0 : p.resetHoldCycles - 1 = 0
  · simpa [h0] using hw
  · exact (Nat.log2_lt h0).mpr h

/-- Settles O34, by RESET_TARGET's rule with the counter at 0 and above. -/
theorem resetTargetHoldsThenReleases : Obligations.ResetTargetHoldsThenReleases := by
  refine ⟨fun p => ⟨Nat.le_add_left 1 _, Moves.lt_two_pow_holdWidth p, fun w => holdWidth_le⟩, fun s hrst => ?_⟩
  have hrule (hd : s.ctl.disp = .resetTarget) := (ruleOf_branch (i := .resetTarget)
    (v := seen (encode .resetTarget) s) hd (by decide)).trans (dispRule_resetTarget hd)
  exact ⟨exec_dispatch hrst,
    fun hd h0 => exec_moves hrst ((hrule hd).trans (resetTargetRule_of_done (by simp [holdDone, h0]))),
    fun hd h0 => exec_moves hrst ((hrule hd).trans (resetTargetRule_of_more (by simpa [holdDone] using h0)))⟩

/-- Settles O35: SET_TCLK waits for the command's one argument byte. -/
theorem setTclkStoresTheDivider : Obligations.SetTclkStoresTheDivider := by
  intro a0 s hrst
  have hrule (hd : s.ctl.disp = .setTclk) := (ruleOf_branch (i := .setTclk a0)
    (v := seen (encode (.setTclk a0)) s) hd (by simp [homeOf])).trans (Dispatcher.dispRule_setTclk hd)
  exact ⟨exec_dispatch hrst,
    fun hd hrx => exec_takes_of_awaitByte (b := a0) hrst hrx (hrule hd) (by simp [bytesTaken, hd, encode]),
    fun hd hrx => exec_holds_of_awaitByte hrst hrx (hrule hd)⟩

/-- Settles O36: SET_SCLK waits for the low byte where the index is 0, and else for the high one. -/
theorem setSclkStoresTheDividerAtOnce : Obligations.SetSclkStoresTheDividerAtOnce := by
  intro div s hrst
  have hrule (hd : s.ctl.disp = .setSclk) := (ruleOf_branch (i := .setSclk div)
    (v := seen (encode (.setSclk div)) s) hd (by simp [homeOf])).trans (Dispatcher.dispRule_setSclk hd)
  refine ⟨exec_dispatch hrst, fun hd hk hrx => ?_, fun hd hk hrx => ?_,
    fun hd hrx => exec_holds_of_awaitByte hrst hrx (hrule hd)⟩
  · have h := exec_takes_of_awaitByte (b := byteAt div 0) hrst hrx (hrule hd) (by simp [bytesTaken, hd, hk, encode])
    rwa [if_pos hk, setArgByte_zero] at h
  · have hbyte : (seen (encode (.setSclk div)) s).rxData = byteAt div 1 := by
      simp only [seen_rxData, bytesTaken, hd, if_neg hk]
      rfl
    have h := exec_takes_of_awaitByte hrst hrx (hrule hd) hbyte
    rwa [if_neg hk] at h

/-! ### The transaction engine -/

/-- In SEND_TRANSACTION the command in hand is `W`. -/
theorem step_eq_exec_transact {s : State} (hd : s.ctl.disp = .sendTransaction) : step s = exec .transact s := by
  refine InHand.stepNeedsNoByteThatHasNotArrived s .transact rfl (.inr (.inl ?_))
  rw [takenBytes, hd]
  exact List.prefix_append _ _

theorem ruleOf_transact {v : Seen} {c : Control} (hd : c.disp = .sendTransaction) :
    ruleOf .transact v c = engineRule v c :=
  (ruleOf_branch hd (by decide)).trans (dispRule_engine hd)

/-- Settles O37: the lines in CLOCK_LOW by the engine's part of the invariant, each cycle by the engine rule. -/
theorem transactRunsTheEngineRule : Obligations.TransactRunsTheEngineRule := by
  refine ⟨fun s => step_eq_exec_transact, fun s hi he => ?_, fun s hrst => ⟨exec_dispatch hrst, fun hd => ?_⟩⟩
  · obtain ⟨-, hc, -⟩ := hi
    obtain ⟨-, -, -, hengine, -⟩ := Moves.controlInv_iff.mp hc
    exact ⟨hengine.clock.mpr he, hengine.data (.inl he)⟩
  · have hrule := ruleOf_transact (v := seen (encode .transact) s) hd
    exact ⟨fun he => exec_moves hrst (hrule.trans (engineRule_start he)),
      fun he hf => exec_moves hrst (hrule.trans (engineRule_prepare_of_empty he hf)),
      fun b rest he hf => exec_moves hrst (hrule.trans (engineRule_prepare_of_cons he hf)),
      fun he => exec_moves hrst (hrule.trans (engineRule_waitNotBusy he)),
      fun he => exec_moves hrst (hrule.trans (engineRule_clockLow he)),
      fun he => exec_moves hrst (hrule.trans (engineRule_writeback he))⟩

/-- What `n` samples, the first one first, make of the shift register (rule R155). -/
def sampled (sample : Nat → Bool) (n : Nat) (sr : Byte) : Byte :=
  (List.range n).foldl (fun v k => shiftIn (sample k) v) sr

theorem sampled_zero (sample : Nat → Bool) (sr : Byte) : sampled sample 0 sr = sr := rfl

theorem sampled_succ (sample : Nat → Bool) (n : Nat) (sr : Byte) :
    sampled sample (n + 1) sr = shiftIn (sample n) (sampled sample n sr) := by
  simp [sampled, List.range_succ]

/-- The latest `n` samples stand in the top `n` bits, the latest one highest. -/
theorem sampled_getLsbD (sample : Nat → Bool) (sr : Byte) {n i : Nat} (hi : i < 8) (hn : 8 ≤ i + n) :
    (sampled sample n sr).getLsbD i = sample (i + n - 8) := by
  induction n generalizing i with
  | zero => omega
  | succ n ih =>
    rw [sampled_succ]
    by_cases h7 : i = 7
    · rw [h7, shiftIn_getLsbD_seven]
      congr 1
      omega
    · rw [shiftIn_getLsbD_lt _ _ (by omega), ih (by omega) (by omega)]
      congr 1
      omega

/-- Below bit 7 the bit index counts up without wrapping. -/
theorem bit_succ_toNat {k : BitVec 3} (h : k ≠ 7) : (k + 1).toNat = k.toNat + 1 := by
  revert k; decide

theorem startBit_succ {c : Control} {b : Byte} (h : c.bit ≠ 7) :
    startBit (c.bit + 1) { c with sr := b } =
      { c with
        sr := b, bit := c.bit + 1, sclkR := false, txdR := c.tx.getLsbD (c.bit.toNat + 1), eng := .clockLow } := by
  rw [startBit, bit_succ_toNat h]

/-- Settles O38: the cycle by the engine rule, the samples by `sampled_getLsbD`. -/
theorem clockHighSamplesLeastSignificantBitFirst : Obligations.ClockHighSamplesLeastSignificantBitFirst := by
  refine ⟨fun s => step_eq_exec_transact, fun s hi he => ?_, fun s hrst hd he => exec_moves hrst ?_,
    fun rxd sr => ⟨shiftIn_getLsbD_seven rxd sr, fun i => shiftIn_getLsbD_lt rxd sr⟩,
    fun sample sr i hi => sampled_getLsbD (n := 8) sample sr hi (by omega)⟩
  · obtain ⟨-, hc, -⟩ := hi
    obtain ⟨-, -, -, hengine, -⟩ := Moves.controlInv_iff.mp hc
    have hne : ¬s.ctl.sclkR = false := fun h => by simp [hengine.clock.mp h] at he
    simpa using hne
  · rw [ruleOf_transact hd, engineRule_clockHigh he, seen_prim]
    by_cases hbit : s.ctl.bit = 7
    · rw [if_pos hbit, if_pos hbit]
    · rw [if_neg hbit, if_neg hbit, startBit_succ hbit]

/-! ### The send waits (rule R115) -/

/-- Settles O23, by the two sending rules with the transmit core ready and not. -/
theorem sendWaitsSendExactlyOneByte : Obligations.SendWaitsSendExactlyOneByte := by
  intro s hrst
  refine ⟨fun h hw => step_moves_of_setCtl hrst ?_, fun hw hd => step_movesSending_of_txPut hrst ?_,
    fun hw hd hp h0 => ?_⟩
  · obtain hd | ⟨hd, hp, h0⟩ := h
    · exact (dispRule_timerReport hd).trans (timerReportRule_of_not_writable hw)
    · exact (dispRule_readbackStream hd hp).trans (readbackStreamRule_of_not_writable h0 hw)
  · exact (dispRule_timerReport hd).trans (timerReportRule_of_writable hw)
  · have h := step_movesSending_of_txPut hrst
      ((dispRule_readbackStream hd hp).trans (readbackStreamRule_of_writable (v := onChannel s) h0 hw))
    refine ⟨fun b rest hf => ?_, fun hf => ?_⟩
    · rwa [hf] at h
    · simpa [hf, filler] using h

/-! ### Reset values and primitives -/

/-- Settles O11: the fields of the reset state, one by one. -/
theorem resetStateHoldsTheListedValues : Obligations.ResetStateHoldsTheListedValues := ⟨rfl, rfl, rfl⟩

/-- The parts that run in every cycle read of the control registers only the two dividers, and of the inputs only the
target's two lines. -/
theorem primNext_congr {x y : Inputs} {c d : Control} (p : Primitives) (hb : y.busyIn = x.busyIn)
    (hr : y.rxdIn = x.rxdIn) (ht : d.tclkDiv = c.tclkDiv) (hs : d.sclkDiv = c.sclkDiv) :
    primNext y d p = primNext x c p := by
  rw [primNext, primNext, tclkTick, tclkTick, hb, hr, ht, hs]

/-- Settles O15. -/
theorem primitivesIgnoreTheDispatcher : Obligations.PrimitivesIgnoreTheDispatcher := by
  intro s u s' u' hs hu hbusy hrxd hprim htclk hsclk hs' hu'
  rw [step_of_running hs] at hs'
  rw [step_of_running hu] at hu'
  cases hs'
  cases hu'
  rw [clockCycle_prim, clockCycle_prim, hprim, primNext_congr s.prim hbusy hrxd htclk hsclk]

end Sys2Proof.OneCycle
end

section
/-! PROOFS. Runs: the state after `k` cycles as a function of the state, and what the registers, the transmit channel
and the receive channel hold there (`Reached`), moved on by one lemma per kind of cycle. -/

namespace Sys2Proof.Runs

open Sys2Proof.Machine Sys2Proof.Safety

/-! ### The state after some cycles -/

/-- The state after `k` clock cycles. -/
def stateAt (s : State) : Nat → State
  | 0 => s
  | k + 1 => nextState (stateAt s k)

@[simp] theorem stateAt_zero (s : State) : stateAt s 0 = s := rfl

theorem stateAt_succ (s : State) (k : Nat) : stateAt s (k + 1) = nextState (stateAt s k) := rfl

/-- A run of `k` cycles ends in `stateAt s k` and nowhere else. -/
theorem after_iff {k : Nat} {s : State} {P : State → Prop} : After k s P ↔ P (stateAt s k) := by
  induction k generalizing P with
  | zero => exact after_zero
  | succ k ih => rw [after_add, ih, after_succ, after_zero, stateAt_succ]

theorem stateAt_add (s : State) (j k : Nat) : stateAt s (j + k) = stateAt (stateAt s j) k := by
  induction k with
  | zero => rfl
  | succ k ih => rw [← Nat.add_assoc, stateAt_succ, stateAt_succ, ih]

theorem inputAt_stateAt (s : State) (j k : Nat) : inputAt (stateAt s j) k = inputAt s (j + k) := by
  induction j generalizing k with
  | zero => rw [stateAt_zero, Nat.zero_add]
  | succ j ih => rw [stateAt_succ, inputAt_nextState, ih]; congr 1; omega

theorem stateAt_now (s : State) (k : Nat) : (stateAt s k).now = inputAt s k := by
  rw [← inputAt_zero, inputAt_stateAt, Nat.add_zero]

@[simp] theorem stateAt_params (s : State) (k : Nat) : (stateAt s k).params = s.params := by
  induction k with
  | zero => rfl
  | succ k ih => rw [stateAt_succ, nextState_params, ih]

theorem noReset_stateAt {s : State} {j k n : Nat} (h : NoReset n s) (hn : j + k ≤ n) : NoReset k (stateAt s j) :=
  fun i hi => by rw [inputAt_stateAt]; exact h _ (by omega)

theorem arrivals_succ_last (s : State) (k : Nat) :
    arrivals s (k + 1) = arrivals s k ++ (inputAt s k).hostBytes := by
  simp [arrivals, List.range_succ]

/-! ### One cycle of a run -/

section
variable {s : State} {k : Nat}

theorem stateAt_succ_of_running (h : (inputAt s k).rst = false) :
    stateAt s (k + 1) = clockCycle (dispRule (onChannel (stateAt s k)) (stateAt s k).ctl) (stateAt s k) :=
  nextState_of_running (by rw [stateAt_now, h])

theorem prim_succ (h : (inputAt s k).rst = false) :
    (stateAt s (k + 1)).prim = primNext (inputAt s k) (stateAt s k).ctl (stateAt s k).prim := by
  rw [stateAt_succ_of_running h, clockCycle_prim, stateAt_now]

theorem busyR_succ (h : (inputAt s k).rst = false) : (stateAt s (k + 1)).prim.busyR = (inputAt s k).busyIn := by
  rw [prim_succ h, primNext_busyR]

theorem busyP_succ (h : (inputAt s k).rst = false) : (stateAt s (k + 1)).prim.busyP = (stateAt s k).prim.busyR := by
  rw [prim_succ h, primNext_busyP]

theorem rxdR_succ (h : (inputAt s k).rst = false) : (stateAt s (k + 1)).prim.rxdR = (inputAt s k).rxdIn := by
  rw [prim_succ h, primNext_rxdR]

end

/-! ### What a run has reached -/

/-- After `k` cycles from `s` the dispatcher has left the registers `c`, exactly `bytes` have been sent, and of the
bytes presented at the start and since exactly those before `rest` have been consumed. -/
structure Reached (k : Nat) (s : State) (c : Control) (bytes rest : List Byte) : Prop where
  ctl : (stateAt s k).ctl = c
  sent : (stateAt s k).sent = s.sent ++ bytes
  rxChan : (stateAt s k).rxChan = rest ++ arrivals s k

theorem reached_zero (s : State) : Reached 0 s s.ctl [] s.rxChan :=
  ⟨rfl, (List.append_nil _).symm, (List.append_nil _).symm⟩

section
variable {k : Nat} {s : State} {c d : Control} {bytes rest : List Byte} {b : Byte} {f : Byte → Control}

/-- One more cycle, whatever its rule does; `rest'` is what the rule leaves of the bytes in hand. -/
theorem Reached.act {a : Act} {rest' : List Byte} (h : Reached k s c bytes rest) (hr : (inputAt s k).rst = false)
    (hrule : dispRule (onChannel (stateAt s k)) c = a)
    (hrest : ∀ q, (if a.rxAck then (rest ++ q).tail else rest ++ q) = rest' ++ q) :
    Reached (k + 1) s a.ctl (bytes ++ a.tx.toList) rest' := by
  have hs := stateAt_succ_of_running hr
  rw [h.ctl, hrule] at hs
  refine ⟨by rw [hs, clockCycle_ctl], by rw [hs, clockCycle_sent, h.sent, List.append_assoc], ?_⟩
  rw [hs, arrivals_succ_last, clockCycle_rxChan, h.rxChan, stateAt_now, hrest, List.append_assoc]

theorem Reached.move (h : Reached k s c bytes rest) (hr : (inputAt s k).rst = false)
    (hrule : dispRule (onChannel (stateAt s k)) c = setCtl d) : Reached (k + 1) s d bytes rest := by
  simpa using h.act hr hrule fun _ => rfl

theorem Reached.take (h : Reached k s c bytes (b :: rest)) (hr : (inputAt s k).rst = false)
    (hrule : dispRule (onChannel (stateAt s k)) c = rxTake d) : Reached (k + 1) s d bytes rest := by
  simpa using h.act (rest' := rest) hr hrule fun _ => rfl

theorem Reached.send (h : Reached k s c bytes rest) (hr : (inputAt s k).rst = false)
    (hrule : dispRule (onChannel (stateAt s k)) c = txPut b d) : Reached (k + 1) s d (bytes ++ [b]) rest :=
  h.act hr hrule fun _ => rfl

theorem Reached.rxChan_eq_cons (h : Reached k s c bytes (b :: rest)) :
    (stateAt s k).rxChan = b :: (rest ++ arrivals s k) := h.rxChan

/-- IDLE takes the presented byte as the command byte (rule R111). -/
theorem Reached.fetch (h : Reached k s c bytes (b :: rest)) (hr : (inputAt s k).rst = false) (hd : c.disp = .idle) :
    Reached (k + 1) s { c with cmd := b, disp := .dispatch } bytes rest := by
  refine h.take hr ?_
  rw [Dispatcher.dispRule_idle hd, idleRule_of_readable (Dispatcher.onChannel_rxReadable_of_cons h.rxChan_eq_cons),
    Dispatcher.onChannel_rxData_of_cons h.rxChan_eq_cons]

/-- DISPATCH makes its entry assignments (rule R112). -/
theorem Reached.enter (h : Reached k s c bytes rest) (hr : (inputAt s k).rst = false) (hd : c.disp = .dispatch) :
    Reached (k + 1) s (dispatchEntry (onChannel (stateAt s k)) c) bytes rest :=
  h.move hr (Dispatcher.dispRule_dispatch hd)

/-- An argument wait acts on the presented byte (rule R114). -/
theorem Reached.await (h : Reached k s c bytes (b :: rest)) (hr : (inputAt s k).rst = false)
    (hrule : dispRule (onChannel (stateAt s k)) c = awaitByte f (onChannel (stateAt s k)) c) :
    Reached (k + 1) s (f b) bytes rest := by
  rw [awaitByte_of_readable (Dispatcher.onChannel_rxReadable_of_cons h.rxChan_eq_cons),
    Dispatcher.onChannel_rxData_of_cons h.rxChan_eq_cons] at hrule
  exact h.take hr hrule

theorem onChannel_txWritable_stateAt (hw : (inputAt s k).txWritable = true) :
    (onChannel (stateAt s k)).txWritable = true := by
  rw [onChannel_txWritable, stateAt_now, hw]

/-- RESPOND sends the reply, and the command has completed (rule R113). -/
theorem Reached.completes (h : Reached k s d bytes rest) (hr : (inputAt s k).rst = false)
    (hw : (inputAt s k).txWritable = true) (hd : d.disp = .respond) (hc : c = { d with disp := .idle }) :
    CompletesIn (k + 1) s c (bytes ++ [d.resp]) rest := by
  have h' := h.send hr
    ((Dispatcher.dispRule_respond hd).trans (respondRule_of_writable (onChannel_txWritable_stateAt hw)))
  subst hc
  exact ⟨rfl, after_iff.mpr ⟨h'.ctl, h'.sent, h'.rxChan, stateAt_params s _⟩⟩

/-- The first two cycles of every command: IDLE takes its byte, DISPATCH enters its branch. -/
theorem reached_dispatched {n : Nat} (hd : s.ctl.disp = .idle) (hrx : s.rxChan = b :: rest) (hnr : NoReset n s)
    (hn : 2 ≤ n) :
    Reached 2 s (dispatchEntry (onChannel (stateAt s 1)) { s.ctl with cmd := b, disp := .dispatch }) [] rest := by
  have h0 := reached_zero s
  rw [hrx] at h0
  exact (h0.fetch (hnr 0 (by omega)) hd).enter (hnr 1 (by omega)) rfl

/-- The registers after the first cycle of every command. -/
theorem stateAt_one_ctl (hd : s.ctl.disp = .idle) (hrx : s.rxChan = b :: rest) (hr : s.now.rst = false) :
    (stateAt s 1).ctl = { s.ctl with cmd := b, disp := .dispatch } := by
  have h0 := reached_zero s
  rw [hrx] at h0
  exact (h0.fetch hr hd).ctl

/-- A run in which every rule is a hold stays where it is. -/
theorem reached_of_holds (hnr : NoReset k s)
    (hold : ∀ j < k, Reached j s s.ctl [] s.rxChan → dispRule (onChannel (stateAt s j)) s.ctl = setCtl s.ctl) :
    Reached k s s.ctl [] s.rxChan := by
  induction k with
  | zero => exact reached_zero s
  | succ k ih =>
    have h := ih (hnr.mono (by omega)) (fun j hj => hold j (by omega))
    exact h.move (hnr k (by omega)) (hold k (by omega) h)

end

end Sys2Proof.Runs
end

section
/-! PROOFS. Runs of the parts that run in every cycle: the target clock's period (rules R100, R102) and the busy-timer's
count of a pulse (rules R95, R96). -/

namespace Sys2Proof.Runs

open Sys2Proof.Machine Sys2Proof.Safety

/-- From counter 0 and with the divider unchanged, the counter counts the cycles up to the divider's value, and the
clock keeps its level. -/
theorem tclk_counts {s : State} {j : Nat} (h0 : s.prim.tclkCtr = 0) (hnr : NoReset j s) (hj : j ≤ s.ctl.tclkDiv.toNat)
    (hdiv : ∀ i ≤ s.ctl.tclkDiv.toNat, (stateAt s i).ctl.tclkDiv = s.ctl.tclkDiv) :
    (stateAt s j).prim.tclkCtr.toNat = j ∧ (stateAt s j).prim.tclkR = s.prim.tclkR := by
  induction j with
  | zero => simp [h0]
  | succ j ih =>
    obtain ⟨hctr, hclk⟩ := ih (hnr.mono (by omega)) (by omega)
    have hd := hdiv j (by omega)
    rw [prim_succ (hnr j (by omega)), EveryCycle.primNext_tclkR_eq, primNext_tclkCtr, hd]
    refine ⟨?_, ?_⟩
    · rw [dividerNext_toNat_of_no_tick (by omega), hctr]
    · rw [if_neg (by omega), hclk]

/-- Settles O16: the counter reaches the divider's value after as many cycles, and the next one is its tick. -/
theorem targetClockTogglesOncePerPeriod : Obligations.TargetClockTogglesOncePerPeriod := by
  intro s h0 hnr hdiv
  simp only [after_iff] at hdiv ⊢
  have hcount {j : Nat} (hj : j ≤ s.ctl.tclkDiv.toNat) := tclk_counts h0 (hnr.mono (by omega)) hj hdiv
  refine ⟨fun j hj => (hcount hj).2, ?_⟩
  obtain ⟨hctr, hclk⟩ := hcount le_rfl
  rw [prim_succ (hnr _ (by omega)), EveryCycle.primNext_tclkR_eq, primNext_tclkCtr, hdiv _ le_rfl]
  exact ⟨by rw [if_pos (by omega), hclk], dividerNext_of_tick (by omega)⟩

/-- What the busy-timer makes of a cycle of a run. -/
theorem timer_succ {s : State} {k : Nat} (h : (inputAt s k).rst = false) :
    ((stateAt s (k + 1)).prim.count, (stateAt s (k + 1)).prim.running) = timerNext (stateAt s k).prim := by
  rw [prim_succ h, primNext_count, primNext_running]

/-- During a pulse that starts in the cycle of `s` the timer has counted the cycles since, less one. -/
theorem pulse_counts {s : State} {L j : Nat} (hb : s.prim.busyR = true) (hp : s.prim.busyP = false)
    (hrun : s.prim.running = false) (hnr : NoReset (j + 1) s) (hj : j < L)
    (hbusy : ∀ i, i + 1 < L → (inputAt s i).busyIn = true) :
    (stateAt s (j + 1)).prim.count.toNat = j % 2 ^ 32 ∧ (stateAt s (j + 1)).prim.running = true ∧
      (stateAt s (j + 1)).prim.busyP = true := by
  induction j with
  | zero =>
    have ht := timer_succ (hnr 0 (by omega))
    have hn : timerNext s.prim = (0, true) := by simp [timerNext, rise, hb, hp, hrun]
    rw [stateAt_zero, hn, Prod.mk.injEq] at ht
    obtain ⟨hc, hr⟩ := ht
    exact ⟨by rw [hc]; rfl, hr, by rw [busyP_succ (hnr 0 (by omega)), stateAt_zero, hb]⟩
  | succ j ih =>
    obtain ⟨hc, hr, hq⟩ := ih (hnr.mono (by omega)) (by omega)
    have hbR : (stateAt s (j + 1)).prim.busyR = true := by
      rw [busyR_succ (hnr j (by omega)), hbusy j hj]
    have ht := timer_succ (hnr (j + 1) (by omega))
    have hn : timerNext (stateAt s (j + 1)).prim = ((stateAt s (j + 1)).prim.count + 1, true) := by
      simp [timerNext, rise, fall, hbR, hq, hr]
    rw [hn, Prod.mk.injEq] at ht
    obtain ⟨hc', hr'⟩ := ht
    refine ⟨?_, hr', by rw [busyP_succ (hnr (j + 1) (by omega)), hbR]⟩
    have h1 : (1 : Word32).toNat = 1 := rfl
    rw [hc', BitVec.toNat_add, hc, Nat.mod_add_mod, h1]

/-- Settles O17: the count of the pulse's last cycle is frozen in the cycle after it. -/
theorem pulseOfLCyclesCountsLessOne : Obligations.PulseOfLCyclesCountsLessOne := by
  intro s L hL hb hp hrun hnr hbusy hlow
  obtain ⟨n, rfl⟩ : ∃ n, L = n + 1 := ⟨L - 1, by omega⟩
  rw [Nat.add_sub_cancel] at hlow ⊢
  obtain ⟨hc, hr, hq⟩ := pulse_counts (L := n + 1) (j := n) hb hp hrun (hnr.mono (by omega)) (by omega) hbusy
  have hbR : (stateAt s (n + 1)).prim.busyR = false := by rw [busyR_succ (hnr n (by omega)), hlow]
  have ht := timer_succ (hnr (n + 1) (by omega))
  have hn : timerNext (stateAt s (n + 1)).prim = ((stateAt s (n + 1)).prim.count, false) := by
    simp [timerNext, rise, fall, hbR, hq]
  rw [hn, Prod.mk.injEq] at ht
  obtain ⟨hc', hr'⟩ := ht
  exact after_iff.mpr ⟨by rw [hc', hc], hr'⟩

end Sys2Proof.Runs
end

section
/-! PROOFS. Whole commands, from the IDLE cycle that takes the command byte to the one after the reply (rules R65, R196,
R212): `reached_dispatched`, then the branch state's cycles, then `Reached.completes`. -/

namespace Sys2Proof.Commands

open Sys2Proof.Machine Sys2Proof.Safety Sys2Proof.Runs Sys2Proof.Rules

/-! ### Commands of a fixed length -/

/-- Settles O39. -/
theorem versionCompletesInFourCycles : Obligations.VersionCompletesInFourCycles := by
  intro s rest hd hrx hnr hw
  have h2 := reached_dispatched hd hrx hnr (by omega)
  rw [Moves.dispatchEntry_version rfl] at h2
  have h3 := h2.move (hnr 2 (by omega)) (dispRule_respondVersion rfl)
  exact ⟨h3.completes (hnr 3 (by omega)) hw rfl (by rw [← hd]; rfl), after_iff.mpr (by simpa using h3.sent)⟩

/-- Settles O40. -/
theorem unknownCompletesInThreeCycles : Obligations.UnknownCompletesInThreeCycles := by
  intro s b rest hb hd hrx hnr hw
  have h2 := reached_dispatched hd hrx hnr (by omega)
  rw [Dispatcher.dispatchEntry_of_unknown hb] at h2
  exact ⟨h2.completes (hnr 2 (by omega)) hw rfl (by rw [← hd]; rfl), after_iff.mpr (by simpa using h2.sent)⟩

/-- Two cycles on, the timer runs exactly where the busy line was high (rule R97). -/
theorem running_two {s : State} (hrun : s.prim.running = s.prim.busyP) (hnr : NoReset 2 s) :
    (stateAt s 2).prim.running = s.now.busyIn := by
  have h1 : (stateAt s 1).prim.running = (stateAt s 1).prim.busyP :=
    Moves.runningFollowsTheEdgeDetector s _ hrun (step_eq_nextState s)
  have h2 : (stateAt s 2).prim.running = (stateAt s 2).prim.busyP :=
    Moves.runningFollowsTheEdgeDetector _ _ h1 (step_eq_nextState _)
  rw [h2, busyP_succ (hnr 1 (by omega)), busyR_succ (hnr 0 (by omega)), inputAt_zero]

/-- Settles O41: the running flag that TIMER_STATUS reads is the line two cycles before. -/
theorem timerStatusTellsTheBusyLineOfTwoCyclesBefore : Obligations.TimerStatusTellsTheBusyLineOfTwoCyclesBefore := by
  intro s rest hd hrx hrun hnr hw
  have h2 := reached_dispatched hd hrx hnr (by omega)
  rw [Moves.dispatchEntry_timerStatus rfl] at h2
  have h3 := h2.move (hnr 2 (by omega)) (dispRule_timerStatus rfl)
  rw [onChannel_prim, running_two hrun (hnr.mono (by omega))] at h3
  exact h3.completes (hnr 3 (by omega)) hw rfl (by rw [← hd]; rfl)

/-- Settles O44: FIFO_WRITE answers by the room in `OUT`. -/
theorem stageAppendsOrDropsItsByte : Obligations.StageAppendsOrDropsItsByte := by
  intro s a0 rest hd hrx hnr hw
  have h2 := reached_dispatched hd hrx hnr (by omega)
  rw [Moves.dispatchEntry_stage rfl] at h2
  have h3 := h2.await (hnr 2 (by omega)) (Dispatcher.dispRule_fifoWrite rfl)
  simp only [onChannel_params, stateAt_params, Fifos.fifoFull_iff] at h3
  split
  next hfull =>
    rw [if_pos hfull] at h3
    exact h3.completes (hnr 3 (by omega)) hw rfl (by rw [← hd]; rfl)
  next hroom =>
    rw [if_neg hroom] at h3
    exact h3.completes (hnr 3 (by omega)) hw rfl (by rw [← hd]; rfl)

/-- Settles O47. -/
theorem setTclkCompletesInFourCycles : Obligations.SetTclkCompletesInFourCycles := by
  intro s a0 rest hd hrx hnr hw
  have h2 := reached_dispatched hd hrx hnr (by omega)
  rw [Moves.dispatchEntry_setTclk rfl] at h2
  have h3 := h2.await (hnr 2 (by omega)) (Dispatcher.dispRule_setTclk rfl)
  exact h3.completes (hnr 3 (by omega)) hw rfl (by rw [← hd]; rfl)

section
variable {k : Nat} {s : State} {c : Control} {bytes rest : List Byte} {b : Byte}

/-- SET_SCLK keeps the low byte (rule R172). -/
theorem sclkLow (h : Reached k s c bytes (b :: rest)) (hr : (inputAt s k).rst = false) (hd : c.disp = .setSclk)
    (hk : c.idx = 0) :
    Reached (k + 1) s { c with arg := c.arg.extractLsb' 8 16 ++ b, idx := 1 } bytes rest := by
  have h' := h.await hr (Dispatcher.dispRule_setSclk hd)
  rwa [if_pos hk, setArgByte_zero] at h'

/-- SET_SCLK writes the divider with the high byte (rule R172). -/
theorem sclkHigh (h : Reached k s c bytes (b :: rest)) (hr : (inputAt s k).rst = false) (hd : c.disp = .setSclk)
    (hk : c.idx ≠ 0) : Reached (k + 1) s (answer replyDone { c with sclkDiv := dividerOf b c.arg }) bytes rest := by
  have h' := h.await hr (Dispatcher.dispRule_setSclk hd)
  rwa [if_neg hk] at h'

end

/-- The divider of `S` is its high byte above the low one that `arg` has kept. -/
theorem dividerOf_append (hi lo : Byte) (a : BitVec 16) : dividerOf hi (a ++ lo) = hi ++ lo := by
  have h : byteAt (a ++ lo) 0 = lo := by
    apply BitVec.eq_of_getLsbD_eq
    intro i hlt
    simp only [byteAt, BitVec.getLsbD_extractLsb', BitVec.getLsbD_append]
    simp [hlt]
  rw [dividerOf, h]

/-- Settles O48. -/
theorem setSclkCompletesInFiveCycles : Obligations.SetSclkCompletesInFiveCycles := by
  intro s lo hi rest hd hrx hnr hw
  have h2 := reached_dispatched hd hrx hnr (by omega)
  rw [Moves.dispatchEntry_setSclk rfl] at h2
  have h3 := sclkLow h2 (hnr 2 (by omega)) rfl rfl
  have h4 := sclkHigh h3 (hnr 3 (by omega)) rfl (by simp)
  rw [dividerOf_append] at h4
  exact ⟨h4.completes (hnr 4 (by omega)) hw rfl (by rw [← hd]; rfl), after_iff.mpr (by rw [h3.ctl])⟩

/-- Settles O49: START, PREPARE with `OUT` empty, and the reply; no register of the lines or of `IN` is written. -/
theorem transactOnEmptyOutOnlyReplies : Obligations.TransactOnEmptyOutOnlyReplies := by
  intro s rest hd hout hrx hnr hw
  have h2 := reached_dispatched hd hrx hnr (by omega)
  rw [Moves.dispatchEntry_transact rfl] at h2
  have h3 := h2.move (hnr 2 (by omega)) ((dispRule_engine rfl).trans (engineRule_start rfl))
  have h4 := h3.move (hnr 3 (by omega)) ((dispRule_engine rfl).trans (engineRule_prepare_of_empty rfl hout))
  have h5 := h4.completes (c := { s.ctl with cmd := 0x57, resp := 0x2E, bit := 0, eng := .eIdle })
    (hnr 4 (by omega)) hw rfl (by rw [← hd]; rfl)
  refine ⟨h5, fun j hj => ?_, after_iff.mpr (by simpa using h4.sent)⟩
  have h1 := stateAt_one_ctl hd hrx (hnr 0 (by omega))
  rw [after_iff]
  interval_cases j
  · exact ⟨rfl, rfl, rfl⟩
  · rw [h1]; exact ⟨rfl, rfl, rfl⟩
  · rw [h2.ctl]; exact ⟨rfl, rfl, rfl⟩
  · rw [h3.ctl]; exact ⟨rfl, rfl, rfl⟩
  · rw [h4.ctl]; exact ⟨rfl, rfl, rfl⟩
  · obtain ⟨-, h5⟩ := h5
    obtain ⟨hctl, -⟩ := after_iff.mp h5
    rw [hctl]; exact ⟨rfl, rfl, rfl⟩

/-! ### `t` -/

section
variable {k : Nat} {s : State} {c : Control} {bytes rest : List Byte}

/-- TIMER_REPORT sends the byte its index names and goes on to the next (rule R131). -/
theorem reportByte (h : Reached k s c bytes rest) (hr : (inputAt s k).rst = false)
    (hw : (inputAt s k).txWritable = true) (hd : c.disp = .timerReport) (hk : c.idx ≠ 3) :
    Reached (k + 1) s { c with idx := c.idx + 1 } (bytes ++ [byteAt c.snap c.idx.toNat]) rest := by
  have h' := h.send hr
    ((dispRule_timerReport hd).trans (timerReportRule_of_writable (onChannel_txWritable_stateAt hw)))
  rwa [if_neg hk] at h'

/-- After the last byte the report is over, with no ack. -/
theorem reportLast (h : Reached k s c bytes rest) (hr : (inputAt s k).rst = false)
    (hw : (inputAt s k).txWritable = true) (hd : c.disp = .timerReport) (hk : c.idx = 3) :
    Reached (k + 1) s { c with disp := .idle } (bytes ++ [byteAt c.snap c.idx.toNat]) rest := by
  have h' := h.send hr
    ((dispRule_timerReport hd).trans (timerReportRule_of_writable (onChannel_txWritable_stateAt hw)))
  rwa [if_pos hk] at h'

end

/-- Settles O42: DISPATCH latches the count, and the four sends read the latch. -/
theorem timerReportSendsOneConsistentCount : Obligations.TimerReportSendsOneConsistentCount := by
  intro s rest hd hrx hnr hw
  rw [after_iff]
  have h2 := reached_dispatched hd hrx hnr (by omega)
  rw [Moves.dispatchEntry_timerReport rfl] at h2
  have h3 : Reached 3 s { s.ctl with cmd := 0x74, snap := (stateAt s 1).prim.count, idx := 1, disp := .timerReport }
      [byteAt (stateAt s 1).prim.count 0] rest :=
    reportByte h2 (hnr 2 (by omega)) (hw 2 (by omega) (by omega)) rfl (by simp)
  have h4 : Reached 4 s { s.ctl with cmd := 0x74, snap := (stateAt s 1).prim.count, idx := 2, disp := .timerReport }
      [byteAt (stateAt s 1).prim.count 0, byteAt (stateAt s 1).prim.count 1] rest :=
    reportByte h3 (hnr 3 (by omega)) (hw 3 (by omega) (by omega)) rfl (by simp)
  have h5 : Reached 5 s { s.ctl with cmd := 0x74, snap := (stateAt s 1).prim.count, idx := 3, disp := .timerReport }
      [byteAt (stateAt s 1).prim.count 0, byteAt (stateAt s 1).prim.count 1, byteAt (stateAt s 1).prim.count 2] rest :=
    reportByte h4 (hnr 4 (by omega)) (hw 4 (by omega) (by omega)) rfl (by simp)
  have h6 := reportLast h5 (hnr 5 (by omega)) (hw 5 (by omega) (by omega)) rfl rfl
  exact ⟨hd, after_iff.mpr ⟨h6.ctl.trans (by rw [← hd]), h6.sent, h6.rxChan, stateAt_params s _⟩⟩

/-! ### `f` -/

/-- FLUSH has discarded one byte of each FIFO per cycle (rule R140). -/
theorem flush_discards {s : State} {c : Control} {rest : List Byte} {n m : Nat} (h : Reached 2 s c [] rest)
    (hd : c.disp = .flush) (hnr : NoReset n s) (hn : 2 + m ≤ n) (hm : m ≤ max c.fifoOut.length c.fifoIn.length) :
    Reached (2 + m) s { c with fifoOut := c.fifoOut.drop m, fifoIn := c.fifoIn.drop m } [] rest := by
  induction m with
  | zero => exact h
  | succ m ih =>
    have hne : c.fifoOut.drop m ≠ [] ∨ c.fifoIn.drop m ≠ [] := by
      rw [ne_eq, ne_eq, List.drop_eq_nil_iff, List.drop_eq_nil_iff]
      omega
    have hmove := (ih (by omega) (by omega)).move (hnr _ (by omega))
      ((dispRule_flush (by exact hd)).trans (flushRule_of_nonempty hne))
    simpa only [List.drop_drop, Nat.add_assoc] using hmove

/-- Settles O43: after the longer FIFO's length both are empty, and FLUSH answers. -/
theorem flushEmptiesBothFifos : Obligations.FlushEmptiesBothFifos := by
  intro s rest hd hrx hnr hw
  have h2 := reached_dispatched hd hrx hnr (by omega)
  rw [Moves.dispatchEntry_flush rfl] at h2
  have hflushed := flush_discards h2 rfl hnr (by dsimp only; omega) le_rfl
  rw [List.drop_eq_nil_of_le (le_max_left _ _), List.drop_eq_nil_of_le (le_max_right _ _)] at hflushed
  have hreply := hflushed.move (hnr _ (by dsimp only; omega)) ((dispRule_flush rfl).trans (flushRule_of_empty rfl rfl))
  have hlen : 4 + max s.ctl.fifoOut.length s.ctl.fifoIn.length
      = 2 + max s.ctl.fifoOut.length s.ctl.fifoIn.length + 1 + 1 := by omega
  rw [show 3 + max s.ctl.fifoOut.length s.ctl.fifoIn.length
      = 2 + max s.ctl.fifoOut.length s.ctl.fifoIn.length + 1 by omega] at hw
  rw [hlen]
  exact hreply.completes (hnr _ (by dsimp only; omega)) hw rfl (by rw [← hd]; rfl)

end Sys2Proof.Commands
end

section
/-! PROOFS. The two commands whose length depends on a parameter or on the argument: `R` (rule R142) and `r`
(rule R170); and the waits of rule R182. -/

namespace Sys2Proof.Commands

open Sys2Proof.Machine Sys2Proof.Safety Sys2Proof.Runs Sys2Proof.Rules

/-! ### `R`: the count -/

section
variable {k : Nat} {s : State} {c : Control} {bytes rest : List Byte} {b : Byte}

theorem countByte (h : Reached k s c bytes (b :: rest)) (hr : (inputAt s k).rst = false) (hd : c.disp = .fifoReadback)
    (hp : c.phase = .arg) (hk : c.idx ≠ 3) :
    Reached (k + 1) s { c with arg := setArgByte c.arg c.idx.toNat b, idx := c.idx + 1 } bytes rest := by
  have h' := h.await hr (Dispatcher.dispRule_readbackArg hd hp)
  rwa [if_neg hk] at h'

theorem countDone (h : Reached k s c bytes (b :: rest)) (hr : (inputAt s k).rst = false) (hd : c.disp = .fifoReadback)
    (hp : c.phase = .arg) (hk : c.idx = 3) :
    Reached (k + 1) s { c with remaining := countOf b c.arg, phase := .stream } bytes rest := by
  have h' := h.await hr (Dispatcher.dispRule_readbackArg hd hp)
  rwa [if_pos hk] at h'

end

/-- Three argument bytes replace the whole argument register. -/
theorem setArgByte_three (a : BitVec 24) (c0 c1 c2 : Byte) :
    setArgByte (setArgByte (setArgByte a 0 c0) 1 c1) 2 c2 = c2 ++ (c1 ++ c0) := by
  rw [setArgByte_zero, setArgByte_one, setArgByte_two]
  apply BitVec.eq_of_getLsbD_eq
  intro i hi
  simp only [BitVec.getLsbD_append, BitVec.getLsbD_extractLsb']
  grind

/-- The registers of `R` once its count is known, before the first byte is streamed. -/
theorem reached_streaming {s : State} {c0 c1 c2 c3 : Byte} {rest : List Byte} {n : Nat} (hd : s.ctl.disp = .idle)
    (hrx : s.rxChan = opReadback :: c0 :: c1 :: c2 :: c3 :: rest) (hnr : NoReset n s) (hn : 6 ≤ n) :
    Reached 6 s
      { s.ctl with
        cmd := opReadback, idx := 3, arg := c2 ++ (c1 ++ c0), phase := .stream, remaining := le32 c0 c1 c2 c3,
        disp := .fifoReadback }
      [] rest := by
  have h2 := reached_dispatched hd hrx hnr (by omega)
  rw [Moves.dispatchEntry_readback rfl] at h2
  have h3 : Reached 3 s
      { s.ctl with
        cmd := opReadback, idx := 1, arg := setArgByte s.ctl.arg 0 c0, phase := .arg, disp := .fifoReadback }
      [] (c1 :: c2 :: c3 :: rest) :=
    countByte h2 (hnr 2 (by omega)) rfl rfl (by simp)
  have h4 : Reached 4 s
      { s.ctl with
        cmd := opReadback, idx := 2, arg := setArgByte (setArgByte s.ctl.arg 0 c0) 1 c1, phase := .arg,
        disp := .fifoReadback }
      [] (c2 :: c3 :: rest) :=
    countByte h3 (hnr 3 (by omega)) rfl rfl (by simp)
  have h5 : Reached 5 s
      { s.ctl with
        cmd := opReadback, idx := 3, arg := setArgByte (setArgByte (setArgByte s.ctl.arg 0 c0) 1 c1) 2 c2,
        phase := .arg, disp := .fifoReadback }
      [] (c3 :: rest) :=
    countByte h4 (hnr 4 (by omega)) rfl rfl (by simp)
  rw [setArgByte_three] at h5
  exact countDone h5 (hnr 5 (by omega)) rfl rfl rfl

/-! ### `R`: the stream -/

/-- What `R` streams in `m` cycles from a FIFO with content `f`: the stored bytes, then the filler. -/
def streamed (f : List Byte) (m : Nat) : List Byte := f.take m ++ List.replicate (m - f.length) filler

theorem streamed_zero (f : List Byte) : streamed f 0 = [] := by simp [streamed]

theorem streamed_succ (f : List Byte) (m : Nat) : streamed f (m + 1) = streamed f m ++ [(f.drop m).headD filler] := by
  by_cases h : m < f.length
  · have hhead : (f.drop m).headD filler = f[m] := by rw [List.drop_eq_getElem_cons h, List.headD_cons]
    rw [hhead, streamed, streamed, Nat.sub_eq_zero_of_le h, Nat.sub_eq_zero_of_le h.le, List.replicate_zero,
      List.append_nil, List.append_nil, List.take_succ_eq_append_getElem h]
  · have hle : f.length ≤ m := Nat.le_of_not_lt h
    rw [streamed, streamed, Nat.succ_sub hle, List.take_of_length_le hle, List.take_of_length_le (by omega),
      List.drop_eq_nil_of_le hle, List.replicate_succ', List.append_assoc, List.headD_nil]

/-- A counter above 0 counts down without wrapping. -/
theorem ofNat_succ_sub_one {w : Nat} (n : Nat) : BitVec.ofNat w (n + 1) - 1 = BitVec.ofNat w n := by
  rw [BitVec.ofNat_add]
  exact BitVec.add_sub_cancel _ _

theorem ofNat_ne_zero {m : Nat} (h0 : 0 < m) (h : m < 2 ^ 32) : BitVec.ofNat 32 m ≠ 0 := by
  intro he
  have := congrArg BitVec.toNat he
  rw [BitVec.toNat_ofNat, Nat.mod_eq_of_lt h] at this
  simp at this
  omega

/-- `R` sends one byte per cycle, popping `IN` where it has one (rule R142). -/
theorem stream_sends {s : State} {c : Control} {rest : List Byte} {k n m : Nat}
    (h : Reached k s { c with remaining := BitVec.ofNat 32 n } [] rest) (hd : c.disp = .fifoReadback)
    (hp : c.phase = .stream) (hn : n < 2 ^ 32) (hnr : NoReset (k + n) s) (hw : TxReady (k + n) s) (hm : m ≤ n) :
    Reached (k + m) s { c with fifoIn := c.fifoIn.drop m, remaining := BitVec.ofNat 32 (n - m) }
      (streamed c.fifoIn m) rest := by
  induction m with
  | zero => rwa [streamed_zero]
  | succ m ih =>
    have hsend := (ih (by omega)).send (hnr _ (by omega)) ((dispRule_readbackStream (by exact hd) (by exact hp)).trans
      (readbackStreamRule_of_writable (by exact ofNat_ne_zero (by omega) (by omega))
        (onChannel_txWritable_stateAt (hw _ (by omega)))))
    rw [← streamed_succ] at hsend
    have hcount : BitVec.ofNat 32 (n - m) - 1 = BitVec.ofNat 32 (n - (m + 1)) := by
      rw [show n - m = n - (m + 1) + 1 by omega, ofNat_succ_sub_one]
    simpa only [List.drop_drop, hcount, Nat.add_assoc] using hsend

/-- Settles O45: the count, then as many streamed bytes, then the cycle that finds none left. -/
theorem readbackStreamsExactlyItsCount : Obligations.ReadbackStreamsExactlyItsCount := by
  intro s c0 c1 c2 c3 rest hd hrx n hnr hw
  have hn : (le32 c0 c1 c2 c3).toNat = n := Arguments.le32_toNat c0 c1 c2 c3
  have hlt : n < 2 ^ 32 := hn ▸ (le32 c0 c1 c2 c3).isLt
  have h6 := reached_streaming hd hrx hnr (by omega)
  have hcount : le32 c0 c1 c2 c3 = BitVec.ofNat 32 n := by rw [← hn, BitVec.ofNat_toNat, BitVec.setWidth_eq]
  rw [hcount] at h6
  have hstream := stream_sends (c := { s.ctl with
      cmd := opReadback, idx := 3, arg := c2 ++ (c1 ++ c0), phase := .stream, disp := .fifoReadback })
    h6 rfl rfl hlt (hnr.mono (by omega)) (fun j hj => hw j (by omega)) le_rfl
  rw [Nat.sub_self] at hstream
  have hdone := hstream.move (hnr _ (by omega)) ((dispRule_readbackStream (by exact rfl) (by exact rfl)).trans
    (readbackStreamRule_of_done (by exact rfl)))
  rw [show 7 + n = 6 + n + 1 by omega]
  exact ⟨hd, after_iff.mpr ⟨hdone.ctl.trans (by rw [← hd]; rfl), hdone.sent, hdone.rxChan,
    stateAt_params s _⟩⟩

/-! ### `r` -/

theorem holdNext_holdOf (p : Params) (n : Nat) : holdNext (holdOf p (n + 1)) = holdOf p n := by
  rw [holdNext, holdOf, ofNat_succ_sub_one, holdOf]

theorem holdDone_holdOf_zero (p : Params) : holdDone (holdOf p 0) = true := by
  rw [holdDone_iff, holdNat_holdOf (Nat.two_pow_pos _)]

theorem holdDone_holdOf_succ {p : Params} {n : Nat} (h : n + 1 < p.resetHoldCycles) :
    holdDone (holdOf p (n + 1)) = false := by
  have hw := Moves.lt_two_pow_holdWidth p
  rw [← Bool.not_eq_true, holdDone_iff, holdNat_holdOf (by omega)]
  omega

/-- RESET_TARGET counts down one per cycle, with the target held in reset (rule R170). -/
theorem reset_counts {s : State} {c : Control} {rest : List Byte} {k n m : Nat}
    (h : Reached k s { c with rstCtr := holdOf s.params n } [] rest) (hd : c.disp = .resetTarget)
    (hn : n < s.params.resetHoldCycles) (hnr : NoReset (k + n) s) (hm : m ≤ n) :
    Reached (k + m) s { c with rstCtr := holdOf s.params (n - m) } [] rest := by
  induction m with
  | zero => exact h
  | succ m ih =>
    have hlt : n - (m + 1) + 1 < s.params.resetHoldCycles := by omega
    have hprev := ih (by omega)
    rw [show n - m = n - (m + 1) + 1 by omega] at hprev
    have hmove := hprev.move (hnr _ (by omega)) ((dispRule_resetTarget (by exact hd)).trans
      (resetTargetRule_of_more (by exact holdDone_holdOf_succ hlt)))
    rwa [holdNext_holdOf] at hmove

/-- Settles O46: the counter starts at `RESET_HOLD_CYCLES - 1`, and the line is released in the cycle it holds 0. -/
theorem resetTargetPulsesTheResetLine : Obligations.ResetTargetPulsesTheResetLine := by
  intro s rest hp hd hrx hnr hw
  obtain ⟨n, hn⟩ : ∃ n, s.params.resetHoldCycles = n + 1 :=
    ⟨s.params.resetHoldCycles - 1, by have := Moves.resetHoldCycles_pos hp; omega⟩
  have h2 := reached_dispatched hd hrx hnr (by omega)
  rw [Moves.dispatchEntry_resetTarget rfl, onChannel_params, stateAt_params, hn, Nat.add_sub_cancel] at h2
  have hcount {m : Nat} (hm : m ≤ n) := reset_counts
    (c := { s.ctl with cmd := 0x72, trstR := true, disp := .resetTarget }) h2 rfl (by omega)
    (hnr.mono (by omega)) hm
  have hzero := hcount le_rfl
  rw [Nat.sub_self] at hzero
  have hrelease := hzero.move (hnr _ (by omega)) ((dispRule_resetTarget (by exact rfl)).trans
    (resetTargetRule_of_done (by exact holdDone_holdOf_zero _)))
  rw [hn] at hnr hw ⊢
  rw [show n + 1 + 3 = 2 + n + 1 + 1 by omega] at hnr ⊢
  rw [show n + 1 + 2 = 2 + n + 1 by omega] at hw ⊢
  refine ⟨hrelease.completes (hnr _ (by omega)) hw rfl (by rw [← hd]; rfl), fun j hj => ?_, fun j hj hjn => ?_, ?_⟩
  · rw [after_iff]
    interval_cases j
    · rfl
    · rw [stateAt_one_ctl hd hrx (hnr 0 (by omega))]
  · obtain ⟨m, rfl⟩ : ∃ m, j = 2 + m := ⟨j - 2, by omega⟩
    rw [after_iff, (hcount (by omega)).ctl]
  · rw [after_iff, hrelease.ctl]
    rfl

/-! ### The waits (rule R182) -/

/-- No byte has come by cycle `j` if none has by cycle `k`. -/
theorem arrivals_eq_nil {s : State} {j k : Nat} (h : arrivals s k = []) (hj : j ≤ k) : arrivals s j = [] := by
  simp only [arrivals, List.flatMap_eq_nil_iff, List.mem_range] at h ⊢
  exact fun i hi => h i (by omega)

/-- Settles O55: in each of the waits the rule of the state is a hold, in every cycle. -/
theorem waitsMayLastForEver : Obligations.WaitsMayLastForEver := by
  intro s k hnr hwait
  have hheld : Reached k s s.ctl [] s.rxChan := by
    refine reached_of_holds hnr fun j hj hreached => ?_
    obtain ⟨hawaits, hrx, harr⟩ | ⟨hsends, hw⟩ | ⟨hd, he, hb, hbusy⟩ | ⟨hd, he, hfull⟩ := hwait
    · have hnil : (stateAt s j).rxChan = [] := by
        rw [hreached.rxChan, hrx, arrivals_eq_nil harr (by omega), List.append_nil]
      exact Dispatcher.dispRule_hold_of_awaitsByte hawaits (Dispatcher.onChannel_rxReadable_of_nil hnil)
    · have hnot : (onChannel (stateAt s j)).txWritable = false := by
        rw [onChannel_txWritable, stateAt_now, hw j hj]
      obtain hd | hd | ⟨hd, hp, h0⟩ := hsends
      · exact (Dispatcher.dispRule_respond hd).trans (respondRule_of_not_writable hnot)
      · exact (dispRule_timerReport hd).trans (timerReportRule_of_not_writable hnot)
      · exact (dispRule_readbackStream hd hp).trans (readbackStreamRule_of_not_writable h0 hnot)
    · have hbR : (stateAt s j).prim.busyR = true := by
        cases j with
        | zero => exact hb
        | succ j => rw [busyR_succ (hnr j (by omega)), hbusy j (by omega)]
      rw [dispRule_engine hd, engineRule_waitNotBusy he, if_neg (by simp [hbR])]
    · rw [dispRule_engine hd, engineRule_writeback he, if_pos (by simpa using hfull)]
  exact after_iff.mpr ⟨hheld.ctl, by simpa using hheld.sent⟩

end Sys2Proof.Commands
end

section
/-! PROOFS. The serial engine's phases and one byte on the line (rules R62, R100, R153 to R155, R158, R159): a phase
lasts until the divider's tick, a bit period is two phases, a byte eight bit periods. -/

namespace Sys2Proof.Serial

open Sys2Proof.Machine Sys2Proof.Safety Sys2Proof.Runs Sys2Proof.Rules

/-! ### One cycle of the engine in a run -/

section
variable {s : State} {k : Nat} {c d : Control}

theorem ctl_succ_of_engine (hr : (inputAt s k).rst = false) (hc : (stateAt s k).ctl = c)
    (hd : c.disp = .sendTransaction) (hrule : engineRule (onChannel (stateAt s k)) c = setCtl d) :
    (stateAt s (k + 1)).ctl = d := by
  rw [stateAt_succ_of_running hr, clockCycle_ctl, hc, dispRule_engine hd, hrule, setCtl_ctl]

theorem sclkCtr_succ (hr : (inputAt s k).rst = false) (hc : (stateAt s k).ctl = c) :
    (stateAt s (k + 1)).prim.sclkCtr = dividerNext (stateAt s k).prim.sclkCtr c.sclkDiv := by
  rw [prim_succ hr, primNext_sclkCtr, hc]

end

/-! ### A phase -/

/-- The engine waits for a serial tick: off the tick its rule is a hold. -/
def AwaitsTick (c : Control) : Prop :=
  ∀ v : Seen, v.prim.sclkCtr.toNat < c.sclkDiv.toNat → engineRule v c = setCtl c

theorem awaitsTick_of_clockLow {c : Control} (h : c.eng = .clockLow) : AwaitsTick c := fun v hv => by
  rw [engineRule_clockLow h, if_neg (by omega)]

theorem awaitsTick_of_clockHigh {c : Control} (h : c.eng = .clockHigh) : AwaitsTick c := fun v hv => by
  rw [engineRule_clockHigh h, if_neg (by omega)]

theorem awaitsTick_of_waitNotBusy {c : Control} (h : c.eng = .waitNotBusy) : AwaitsTick c := fun v hv => by
  rw [engineRule_waitNotBusy h, if_neg (by omega)]

section
variable {s : State} {j : Nat}

/-- Until the divider has reached its value nothing changes but its counter (rule R100). -/
theorem phase_holds (hd : s.ctl.disp = .sendTransaction) (hwait : AwaitsTick s.ctl) (hnr : NoReset j s)
    (hj : j ≤ s.ctl.sclkDiv.toNat - s.prim.sclkCtr.toNat) :
    (stateAt s j).ctl = s.ctl ∧ (stateAt s j).prim.sclkCtr.toNat = s.prim.sclkCtr.toNat + j := by
  induction j with
  | zero => exact ⟨rfl, rfl⟩
  | succ j ih =>
    obtain ⟨hctl, hctr⟩ := ih (hnr.mono (by omega)) (by omega)
    have hr := hnr j (by omega)
    refine ⟨ctl_succ_of_engine hr hctl hd (hwait _ (by rw [onChannel_prim]; omega)), ?_⟩
    rw [sclkCtr_succ hr hctl, dividerNext_toNat_of_no_tick (by omega), hctr, Nat.add_assoc]

/-- The phase's last cycle has the tick, and the counter restarts. -/
theorem phase_ends {d : Control} (hd : s.ctl.disp = .sendTransaction) (hwait : AwaitsTick s.ctl)
    (hnr : NoReset (s.ctl.sclkDiv.toNat - s.prim.sclkCtr.toNat + 1) s)
    (hrule : ∀ v : Seen, v.prim = (stateAt s (s.ctl.sclkDiv.toNat - s.prim.sclkCtr.toNat)).prim →
      s.ctl.sclkDiv.toNat ≤ v.prim.sclkCtr.toNat → engineRule v s.ctl = setCtl d) :
    (stateAt s (s.ctl.sclkDiv.toNat - s.prim.sclkCtr.toNat + 1)).ctl = d ∧
      (stateAt s (s.ctl.sclkDiv.toNat - s.prim.sclkCtr.toNat + 1)).prim.sclkCtr = 0 := by
  obtain ⟨hctl, hctr⟩ := phase_holds hd hwait (hnr.mono (by omega)) le_rfl
  have htick : s.ctl.sclkDiv.toNat
      ≤ (stateAt s (s.ctl.sclkDiv.toNat - s.prim.sclkCtr.toNat)).prim.sclkCtr.toNat := by omega
  have hr := hnr _ (Nat.lt_succ_self _)
  exact ⟨ctl_succ_of_engine hr hctl hd (hrule _ rfl htick),
    by rw [sclkCtr_succ hr hctl, dividerNext_of_tick htick]⟩

end

/-- Settles O50: CLOCK_LOW waits for a tick, and on it goes to CLOCK_HIGH. -/
theorem lowPhaseEndsOnTheNextTick : Obligations.LowPhaseEndsOnTheNextTick := by
  intro s hd he hnr
  have hwait := awaitsTick_of_clockLow he
  refine ⟨fun j hj => after_iff.mpr (phase_holds hd hwait (hnr.mono (by omega)) hj).1, after_iff.mpr ?_⟩
  exact phase_ends hd hwait hnr fun v _ hv => by rw [engineRule_clockLow he, if_pos hv]

/-! ### A bit period -/

/-- The serial bit period's half, in cycles. -/
def halfPeriod (c : Control) : Nat := c.sclkDiv.toNat + 1

theorem halfPeriod_pos (c : Control) : 0 < halfPeriod c := Nat.succ_pos _

/-- The registers of the high phase that follows the low phase `c`. -/
def highPhase (c : Control) : Control := { c with sclkR := true, eng := .clockHigh }

/-- The registers after the high phase that follows the low phase `c`, with the sample `x`. -/
def afterBit (x : Bool) (c : Control) : Control :=
  if c.bit = 7 then { c with sclkR := true, sr := shiftIn x c.sr, eng := .writeback }
  else startBit (c.bit + 1) { c with sr := shiftIn x c.sr }

section
variable {s : State} {j : Nat}

theorem low_phase (hd : s.ctl.disp = .sendTransaction) (he : s.ctl.eng = .clockLow) (h0 : s.prim.sclkCtr = 0)
    (hnr : NoReset j s) (hj : j < halfPeriod s.ctl) : (stateAt s j).ctl = s.ctl := by
  have hzero : s.prim.sclkCtr.toNat = 0 := by rw [h0]; rfl
  exact (phase_holds hd (awaitsTick_of_clockLow he) hnr (by unfold halfPeriod at hj; omega)).1

theorem low_phase_end (hd : s.ctl.disp = .sendTransaction) (he : s.ctl.eng = .clockLow) (h0 : s.prim.sclkCtr = 0)
    (hnr : NoReset (halfPeriod s.ctl) s) :
    (stateAt s (halfPeriod s.ctl)).ctl = highPhase s.ctl ∧ (stateAt s (halfPeriod s.ctl)).prim.sclkCtr = 0 := by
  have hlen : halfPeriod s.ctl = s.ctl.sclkDiv.toNat - s.prim.sclkCtr.toNat + 1 := by rw [h0]; rfl
  rw [hlen] at hnr ⊢
  exact phase_ends hd (awaitsTick_of_clockLow he) hnr fun v _ hv => by rw [engineRule_clockLow he, if_pos hv]; rfl

theorem high_phase (hd : s.ctl.disp = .sendTransaction) (he : s.ctl.eng = .clockLow) (h0 : s.prim.sclkCtr = 0)
    (hnr : NoReset (halfPeriod s.ctl + j) s) (hj : j < halfPeriod s.ctl) :
    (stateAt s (halfPeriod s.ctl + j)).ctl = highPhase s.ctl := by
  obtain ⟨hctl, hctr⟩ := low_phase_end hd he h0 (hnr.mono (by omega))
  have hzero : (stateAt s (halfPeriod s.ctl)).prim.sclkCtr.toNat = 0 := by rw [hctr]; rfl
  have hdiv : (stateAt s (halfPeriod s.ctl)).ctl.sclkDiv = s.ctl.sclkDiv := by rw [hctl]; rfl
  rw [stateAt_add, ← hctl]
  refine (phase_holds (by rw [hctl]; exact hd) (awaitsTick_of_clockHigh (by rw [hctl]; rfl))
    (noReset_stateAt hnr le_rfl) ?_).1
  rw [hdiv, hzero]
  unfold halfPeriod at hj
  omega

/-- A bit period from the first cycle of its low phase: the sample of its last cycle is the line one cycle before. -/
theorem bit_period_end (hd : s.ctl.disp = .sendTransaction) (he : s.ctl.eng = .clockLow) (h0 : s.prim.sclkCtr = 0)
    (hnr : NoReset (2 * halfPeriod s.ctl) s) :
    (stateAt s (2 * halfPeriod s.ctl)).ctl = afterBit (inputAt s (2 * halfPeriod s.ctl - 2)).rxdIn s.ctl ∧
      (stateAt s (2 * halfPeriod s.ctl)).prim.sclkCtr = 0 := by
  obtain ⟨hctl, hctr⟩ := low_phase_end hd he h0 (hnr.mono (by omega))
  have hlen : halfPeriod s.ctl = (stateAt s (halfPeriod s.ctl)).ctl.sclkDiv.toNat
      - (stateAt s (halfPeriod s.ctl)).prim.sclkCtr.toNat + 1 := by rw [hctl, hctr]; rfl
  have hpos := halfPeriod_pos s.ctl
  have hsample : (stateAt (stateAt s (halfPeriod s.ctl)) (halfPeriod s.ctl - 1)).prim.rxdR
      = (inputAt s (2 * halfPeriod s.ctl - 2)).rxdIn := by
    rw [← stateAt_add, show halfPeriod s.ctl + (halfPeriod s.ctl - 1) = 2 * halfPeriod s.ctl - 2 + 1 by omega,
      rxdR_succ (hnr _ (by omega))]
  have hend := phase_ends (s := stateAt s (halfPeriod s.ctl))
    (d := afterBit (inputAt s (2 * halfPeriod s.ctl - 2)).rxdIn s.ctl) (by rw [hctl]; exact hd)
    (awaitsTick_of_clockHigh (by rw [hctl]; rfl)) (by rw [← hlen]; exact noReset_stateAt hnr (by omega)) ?_
  · rwa [← hlen, ← stateAt_add, ← Nat.two_mul] at hend
  · intro v hv htick
    have hlast : (stateAt s (halfPeriod s.ctl)).ctl.sclkDiv.toNat
        - (stateAt s (halfPeriod s.ctl)).prim.sclkCtr.toNat = halfPeriod s.ctl - 1 := by omega
    have hx : v.prim.rxdR = (inputAt s (2 * halfPeriod s.ctl - 2)).rxdIn := by rw [hv, hlast, hsample]
    rw [engineRule_clockHigh (by rw [hctl]; rfl), if_pos htick, hctl, hx]
    congr 1

end

/-! ### A byte -/

/-- The first cycle of the low phase of bit 0, right after a tick. -/
structure ByteStart (s : State) : Prop where
  disp : s.ctl.disp = .sendTransaction
  eng : s.ctl.eng = .clockLow
  bit : s.ctl.bit = 0
  clock : s.ctl.sclkR = false
  data : s.ctl.txdR = s.ctl.tx.getLsbD 0
  counter : s.prim.sclkCtr = 0

/-- The sample of bit `i` of the byte that starts in `s`: the line in the last-but-one cycle of its period. -/
def sampleAt (s : State) (i : Nat) : Bool := (inputAt s ((2 * i + 2) * halfPeriod s.ctl - 2)).rxdIn

/-- The registers at the start of bit `i` of the byte that starts in `s`. -/
def bitRegs (s : State) (i : Nat) : Control :=
  { s.ctl with
    bit := BitVec.ofNat 3 i, sclkR := false, txdR := s.ctl.tx.getLsbD i, eng := .clockLow,
    sr := OneCycle.sampled (sampleAt s) i s.ctl.sr }

/-- The registers at the end of the byte that starts in `s`. -/
def byteRegs (s : State) : Control :=
  { s.ctl with
    bit := 7, sclkR := true, txdR := s.ctl.tx.getLsbD 7, eng := .writeback,
    sr := OneCycle.sampled (sampleAt s) 8 s.ctl.sr }

theorem halfPeriod_bitRegs (s : State) (i : Nat) : halfPeriod (bitRegs s i) = halfPeriod s.ctl := rfl

theorem ByteStart.ctl_eq {s : State} (h : ByteStart s) : s.ctl = bitRegs s 0 := by
  rw [bitRegs, OneCycle.sampled_zero, ← h.clock, ← h.data, ← h.eng, show BitVec.ofNat 3 0 = s.ctl.bit from h.bit.symm]

theorem ofNat_ne_seven {i : Nat} (h : i < 7) : BitVec.ofNat 3 i ≠ 7 := by
  interval_cases i <;> decide

theorem afterBit_bitRegs_lt {s : State} {i : Nat} (h : i < 7) :
    afterBit (sampleAt s i) (bitRegs s i) = bitRegs s (i + 1) := by
  have hbit : (bitRegs s i).bit ≠ 7 := ofNat_ne_seven h
  have hsucc : (bitRegs s i).bit + 1 = BitVec.ofNat 3 (i + 1) := (BitVec.ofNat_add i 1).symm
  have htoNat : (BitVec.ofNat 3 (i + 1)).toNat = i + 1 := by
    rw [BitVec.toNat_ofNat]
    omega
  rw [afterBit, if_neg hbit, hsucc, startBit, htoNat, bitRegs, bitRegs, OneCycle.sampled_succ]

theorem afterBit_bitRegs_seven (s : State) : afterBit (sampleAt s 7) (bitRegs s 7) = byteRegs s := by
  rw [afterBit, if_pos (show (bitRegs s 7).bit = 7 from rfl), byteRegs, OneCycle.sampled_succ]
  rfl

section
variable {s : State} {i j : Nat}

/-- From the start of a bit to the start of the next one. -/
theorem bit_step (hd : s.ctl.disp = .sendTransaction) (hnr : NoReset (2 * (i + 1) * halfPeriod s.ctl) s)
    (hctl : (stateAt s (2 * i * halfPeriod s.ctl)).ctl = bitRegs s i)
    (hctr : (stateAt s (2 * i * halfPeriod s.ctl)).prim.sclkCtr = 0) :
    (stateAt s (2 * (i + 1) * halfPeriod s.ctl)).ctl = afterBit (sampleAt s i) (bitRegs s i) ∧
      (stateAt s (2 * (i + 1) * halfPeriod s.ctl)).prim.sclkCtr = 0 := by
  have hP : halfPeriod (stateAt s (2 * i * halfPeriod s.ctl)).ctl = halfPeriod s.ctl := by rw [hctl]; rfl
  have hpos := halfPeriod_pos s.ctl
  have hsplit : 2 * (i + 1) * halfPeriod s.ctl = 2 * i * halfPeriod s.ctl + 2 * halfPeriod s.ctl := by ring
  have hsample : 2 * i * halfPeriod s.ctl + (2 * halfPeriod s.ctl - 2) = (2 * i + 2) * halfPeriod s.ctl - 2 := by
    rw [show (2 * i + 2) * halfPeriod s.ctl = 2 * i * halfPeriod s.ctl + 2 * halfPeriod s.ctl by ring]
    omega
  have hend := bit_period_end (s := stateAt s (2 * i * halfPeriod s.ctl)) (by rw [hctl]; exact hd) (by rw [hctl]; rfl)
    hctr (by rw [hP]; exact noReset_stateAt hnr (by omega))
  rwa [hP, ← stateAt_add, ← hsplit, inputAt_stateAt, hsample, hctl] at hend

theorem ByteStart.at_bit (h : ByteStart s) (hi : i < 8) (hnr : NoReset (2 * i * halfPeriod s.ctl) s) :
    (stateAt s (2 * i * halfPeriod s.ctl)).ctl = bitRegs s i ∧
      (stateAt s (2 * i * halfPeriod s.ctl)).prim.sclkCtr = 0 := by
  induction i with
  | zero =>
    rw [Nat.mul_zero, Nat.zero_mul]
    exact ⟨h.ctl_eq, h.counter⟩
  | succ i ih =>
    have hle : 2 * i * halfPeriod s.ctl ≤ 2 * (i + 1) * halfPeriod s.ctl := Nat.mul_le_mul_right _ (by omega)
    obtain ⟨hctl, hctr⟩ := ih (by omega) (hnr.mono hle)
    have hstep := bit_step h.disp hnr hctl hctr
    rwa [afterBit_bitRegs_lt (by omega)] at hstep

/-- The low phase of bit `i`. -/
theorem ByteStart.in_low (h : ByteStart s) (hi : i < 8) (hj : j < halfPeriod s.ctl)
    (hnr : NoReset (2 * i * halfPeriod s.ctl + j) s) :
    (stateAt s (2 * i * halfPeriod s.ctl + j)).ctl = bitRegs s i := by
  obtain ⟨hctl, hctr⟩ := h.at_bit hi (hnr.mono (by omega))
  rw [stateAt_add, ← hctl]
  exact low_phase (by rw [hctl]; exact h.disp) (by rw [hctl]; rfl) hctr (noReset_stateAt hnr le_rfl)
    (by rw [hctl]; exact hj)

/-- The high phase of bit `i`. -/
theorem ByteStart.in_high (h : ByteStart s) (hi : i < 8) (hj : j < halfPeriod s.ctl)
    (hnr : NoReset (2 * i * halfPeriod s.ctl + (halfPeriod s.ctl + j)) s) :
    (stateAt s (2 * i * halfPeriod s.ctl + (halfPeriod s.ctl + j))).ctl = highPhase (bitRegs s i) := by
  obtain ⟨hctl, hctr⟩ := h.at_bit hi (hnr.mono (by omega))
  have hP : halfPeriod (stateAt s (2 * i * halfPeriod s.ctl)).ctl = halfPeriod s.ctl := by rw [hctl]; rfl
  have hhigh := high_phase (j := j) (by rw [hctl]; exact h.disp) (by rw [hctl]; rfl) hctr
    (noReset_stateAt hnr (by rw [hP])) (by rw [hP]; exact hj)
  rwa [hP, hctl, ← stateAt_add] at hhigh

/-- Through bit period `i` the engine is in SEND_TRANSACTION with bit `i` on the data line (rule R158). -/
theorem ByteStart.in_period (h : ByteStart s) (hi : i < 8) (hj : j < 2 * halfPeriod s.ctl)
    (hnr : NoReset (2 * i * halfPeriod s.ctl + j) s) :
    (stateAt s (2 * i * halfPeriod s.ctl + j)).ctl.disp = .sendTransaction ∧
      (stateAt s (2 * i * halfPeriod s.ctl + j)).ctl.txdR = s.ctl.tx.getLsbD i := by
  by_cases hlow : j < halfPeriod s.ctl
  · rw [h.in_low hi hlow hnr]
    exact ⟨h.disp, rfl⟩
  · obtain ⟨m, rfl⟩ : ∃ m, j = halfPeriod s.ctl + m := ⟨j - halfPeriod s.ctl, by omega⟩
    rw [h.in_high hi (by omega) hnr]
    exact ⟨h.disp, rfl⟩

/-- After sixteen phases the byte has been sent and captured. -/
theorem ByteStart.end_of_byte (h : ByteStart s) (hnr : NoReset (16 * halfPeriod s.ctl) s) :
    (stateAt s (16 * halfPeriod s.ctl)).ctl = byteRegs s := by
  obtain ⟨hctl, hctr⟩ := h.at_bit (i := 7) (by omega) (hnr.mono (by omega))
  have hstep := bit_step h.disp hnr hctl hctr
  rw [afterBit_bitRegs_seven] at hstep
  exact hstep.1

end

/-- Bit `i` of the captured byte is the sample of its period. -/
theorem byteRegs_sr_getLsbD {s : State} {i : Nat} (hi : i < 8) : (byteRegs s).sr.getLsbD i = sampleAt s i :=
  OneCycle.sampled_getLsbD (n := 8) _ _ hi (by omega)

/-- Settles O51, by the phases of each bit and the end of the byte. -/
theorem byteIsClockedInSixteenPhases : Obligations.ByteIsClockedInSixteenPhases := by
  intro s hd he hb hs hx h0 P hnr
  have hstart : ByteStart s := ⟨hd, he, hb, hs, hx, h0⟩
  have hP : P = halfPeriod s.ctl := rfl
  rw [hP] at hnr ⊢
  simp only [after_iff]
  refine ⟨fun i hi j hj => ⟨?_, ?_⟩, ?_⟩
  · have hle : 2 * i * halfPeriod s.ctl ≤ 14 * halfPeriod s.ctl := Nat.mul_le_mul_right _ (by omega)
    rw [hstart.in_low hi hj (hnr.mono (by omega))]
    exact ⟨rfl, rfl⟩
  · have hle : 2 * i * halfPeriod s.ctl ≤ 14 * halfPeriod s.ctl := Nat.mul_le_mul_right _ (by omega)
    rw [show (2 * i + 1) * halfPeriod s.ctl + j = 2 * i * halfPeriod s.ctl + (halfPeriod s.ctl + j) by ring,
      hstart.in_high hi hj (hnr.mono (by omega))]
    exact ⟨rfl, rfl⟩
  · rw [hstart.end_of_byte hnr]
    exact ⟨hd, rfl, rfl, rfl, rfl, rfl, fun i hi => byteRegs_sr_getLsbD hi⟩

/-- Settles O52: the sample of bit `i` is taken in bit period `i`, where the line carries bit `i`. -/
theorem loopbackCapturesTheByteSent : Obligations.LoopbackCapturesTheByteSent := by
  intro s hd he hb hs hx h0 P hnr hloop
  have hstart : ByteStart s := ⟨hd, he, hb, hs, hx, h0⟩
  have hP : P = halfPeriod s.ctl := rfl
  rw [hP] at hnr hloop ⊢
  rw [after_iff, hstart.end_of_byte hnr]
  refine ⟨rfl, BitVec.eq_of_getLsbD_eq fun i hi => ?_⟩
  have hpos := halfPeriod_pos s.ctl
  have hle : 2 * i * halfPeriod s.ctl ≤ 14 * halfPeriod s.ctl := Nat.mul_le_mul_right _ (by omega)
  have hcycle : (2 * i + 2) * halfPeriod s.ctl - 2 = 2 * i * halfPeriod s.ctl + (2 * halfPeriod s.ctl - 2) := by
    rw [show (2 * i + 2) * halfPeriod s.ctl = 2 * i * halfPeriod s.ctl + 2 * halfPeriod s.ctl by ring]
    omega
  have hline := after_iff.mp (hloop (2 * i * halfPeriod s.ctl + (2 * halfPeriod s.ctl - 2)) (by omega))
  rw [stateAt_now, (hstart.in_period hi (by omega) (hnr.mono (by omega))).2] at hline
  rw [byteRegs_sr_getLsbD hi, sampleAt, hcycle, hline]

end Sys2Proof.Serial
end

section
/-! PROOFS. A whole transaction (rules R67, R152, R153, R156, R157, R163, R204): PREPARE loads a byte, WAIT_NOT_BUSY
ends on a tick with the target free, sixteen phases send and capture, WRITEBACK stores. Each statement is an induction
over the bytes of `OUT`. -/

namespace Sys2Proof.Transaction

open Sys2Proof.Machine Sys2Proof.Safety Sys2Proof.Runs Sys2Proof.Rules Sys2Proof.Serial

/-! ### The engine's states around a byte -/

/-- The registers after PREPARE has taken `b` from `OUT` and left `rest` (rule R152). -/
def loaded (b : Byte) (rest : List Byte) (c : Control) : Control :=
  { c with tx := b, fifoOut := rest, eng := .waitNotBusy }

/-- The registers after WRITEBACK has stored the byte captured from `u` on (rule R156). -/
def stored (u : State) : Control :=
  { byteRegs u with fifoIn := u.ctl.fifoIn ++ [(byteRegs u).sr], eng := .prepare }

/-- From PREPARE in `s`, the first low-phase cycle of the byte `b` is `st` cycles away, with `rest` left in `OUT`. -/
structure SlotStart (s : State) (b : Byte) (rest : List Byte) (st : Nat) : Prop where
  counter : (stateAt s st).prim.sclkCtr = 0
  ctl : (stateAt s st).ctl = startBit 0 (loaded b rest s.ctl)

section
variable {s : State} {b : Byte} {rest : List Byte} {st k : Nat}

theorem prepare_loads (hd : s.ctl.disp = .sendTransaction) (he : s.ctl.eng = .prepare) (hf : s.ctl.fifoOut = b :: rest)
    (hr : s.now.rst = false) : (stateAt s 1).ctl = loaded b rest s.ctl :=
  ctl_succ_of_engine hr rfl hd (engineRule_prepare_of_cons he hf)

theorem prepare_answers (hd : s.ctl.disp = .sendTransaction) (he : s.ctl.eng = .prepare) (hf : s.ctl.fifoOut = [])
    (hr : s.now.rst = false) : (stateAt s 1).ctl = { answer replyDone s.ctl with eng := .eIdle } :=
  ctl_succ_of_engine hr rfl hd (engineRule_prepare_of_empty he hf)

theorem SlotStart.byteStart (h : SlotStart s b rest st) (hd : s.ctl.disp = .sendTransaction) :
    ByteStart (stateAt s st) :=
  ⟨by rw [h.ctl]; exact hd, by rw [h.ctl]; rfl, by rw [h.ctl]; rfl, by rw [h.ctl]; rfl, by rw [h.ctl]; rfl, h.counter⟩

theorem SlotStart.halfPeriod_eq (h : SlotStart s b rest st) :
    halfPeriod (stateAt s st).ctl = halfPeriod s.ctl := by rw [h.ctl]; rfl

theorem SlotStart.fifoIn_eq (h : SlotStart s b rest st) : (stateAt s st).ctl.fifoIn = s.ctl.fifoIn := by
  rw [h.ctl]; rfl

/-- The byte has been sent and captured, and waits for room in `IN`. -/
theorem SlotStart.at_writeback (h : SlotStart s b rest st) (hd : s.ctl.disp = .sendTransaction)
    (hnr : NoReset (st + 16 * halfPeriod s.ctl) s) :
    (stateAt s (st + 16 * halfPeriod s.ctl)).ctl = byteRegs (stateAt s st) := by
  have hend := (h.byteStart hd).end_of_byte (by rw [h.halfPeriod_eq]; exact noReset_stateAt hnr le_rfl)
  rwa [h.halfPeriod_eq, ← stateAt_add] at hend

/-- With room in `IN` the captured byte is stored, and PREPARE comes again. -/
theorem SlotStart.stores (h : SlotStart s b rest st) (hd : s.ctl.disp = .sendTransaction)
    (hnr : NoReset (st + 16 * halfPeriod s.ctl + 1) s) (hroom : s.ctl.fifoIn.length ≠ s.params.inDepth) :
    (stateAt s (st + 16 * halfPeriod s.ctl + 1)).ctl = stored (stateAt s st) := by
  have hctl := h.at_writeback hd (hnr.mono (by omega))
  refine ctl_succ_of_engine (hnr _ (by omega)) hctl (h.byteStart hd).disp ?_
  rw [engineRule_writeback rfl, if_neg]
  · rfl
  · rw [onChannel_params, stateAt_params, byteRegs]
    dsimp only
    rwa [h.fifoIn_eq]

/-- What a stored byte leaves for the next one. -/
theorem SlotStart.stored_eq (h : SlotStart s b rest st) (hd : s.ctl.disp = .sendTransaction) :
    (stored (stateAt s st)).disp = .sendTransaction ∧ (stored (stateAt s st)).eng = .prepare ∧
      (stored (stateAt s st)).fifoOut = rest ∧
      (stored (stateAt s st)).fifoIn = s.ctl.fifoIn ++ [(byteRegs (stateAt s st)).sr] ∧
      halfPeriod (stored (stateAt s st)) = halfPeriod s.ctl := by
  refine ⟨(h.byteStart hd).disp, rfl, ?_, ?_, h.halfPeriod_eq⟩
  · rw [stored, byteRegs, h.ctl]; rfl
  · rw [stored, h.fifoIn_eq]

end

/-! ### A transaction with a free target ends (rules R163, R204) -/

/-- No cycle among the next `k` has the target busy. -/
def Free (k : Nat) (s : State) : Prop := ∀ j < k, (inputAt s j).busyIn = false

theorem busyR_of_free {s : State} {j k : Nat} (hb : s.prim.busyR = false) (hfree : Free k s) (hnr : NoReset k s)
    (hj : j ≤ k) : (stateAt s j).prim.busyR = false := by
  cases j with
  | zero => exact hb
  | succ j => rw [busyR_succ (hnr j (by omega)), hfree j (by omega)]

/-- With the target free, WAIT_NOT_BUSY ends on the next tick. -/
theorem slotStart_of_free {s : State} {b : Byte} {rest : List Byte} (hd : s.ctl.disp = .sendTransaction)
    (he : s.ctl.eng = .prepare) (hf : s.ctl.fifoOut = b :: rest) (hb : s.prim.busyR = false)
    (hfree : Free (halfPeriod s.ctl + 1) s) (hnr : NoReset (halfPeriod s.ctl + 1) s) :
    ∃ st ≤ halfPeriod s.ctl + 1, SlotStart s b rest st := by
  have hload := prepare_loads hd he hf (hnr 0 (by omega))
  have hdiv : (stateAt s 1).ctl.sclkDiv = s.ctl.sclkDiv := by rw [hload]; rfl
  have hle : (stateAt s 1).ctl.sclkDiv.toNat - (stateAt s 1).prim.sclkCtr.toNat + 1 ≤ halfPeriod s.ctl := by
    rw [hdiv, halfPeriod]
    omega
  obtain ⟨hctl, hctr⟩ := phase_ends (s := stateAt s 1) (d := startBit 0 (loaded b rest s.ctl))
    (by rw [hload]; exact hd) (awaitsTick_of_waitNotBusy (by rw [hload]; rfl)) (noReset_stateAt hnr (by omega))
    fun v hv htick => by
      have hbR : v.prim.busyR = false := by
        rw [hv, ← stateAt_add]
        exact busyR_of_free hb hfree hnr (by omega)
      rw [engineRule_waitNotBusy (by rw [hload]; rfl), if_pos ⟨hbR, htick⟩, hload]
  rw [← stateAt_add] at hctl hctr
  exact ⟨_, by omega, hctr, hctl⟩

/-- The cycles from PREPARE to RESPOND for `n` bytes, at most. -/
def prepareBound (c : Control) (n : Nat) : Nat := 1 + n * (17 * halfPeriod c + 2)

theorem prepareBound_succ (c : Control) (n : Nat) :
    prepareBound c (n + 1) = prepareBound c n + (17 * halfPeriod c + 2) := by
  unfold prepareBound
  ring

/-- What a transaction that has ended leaves, `n` bytes after PREPARE. -/
structure Ended (c d : Control) (n : Nat) : Prop where
  disp : d.disp = .respond
  resp : d.resp = replyDone
  fifoOut : d.fifoOut = []
  fifoIn : d.fifoIn.length = c.fifoIn.length + n

theorem ends_from_prepare {s : State} (out : List Byte) (hd : s.ctl.disp = .sendTransaction) (he : s.ctl.eng = .prepare)
    (hf : s.ctl.fifoOut = out) (hb : s.prim.busyR = false)
    (hroom : s.ctl.fifoIn.length + out.length ≤ s.params.inDepth) (hnr : NoReset (prepareBound s.ctl out.length) s)
    (hfree : Free (prepareBound s.ctl out.length) s) :
    ∃ k ≤ prepareBound s.ctl out.length, Ended s.ctl (stateAt s k).ctl out.length := by
  induction out generalizing s with
  | nil =>
    have hctl := prepare_answers hd he hf (hnr 0 (by unfold prepareBound; omega))
    exact ⟨1, by unfold prepareBound; omega, by rw [hctl]; exact ⟨rfl, rfl, hf, rfl⟩⟩
  | cons b rest ih =>
    rw [List.length_cons] at hroom hnr hfree ⊢
    rw [prepareBound_succ] at hnr hfree ⊢
    obtain ⟨st, hst, hslot⟩ := slotStart_of_free hd he hf hb (fun j hj => hfree j (by omega)) (hnr.mono (by omega))
    have hctl := hslot.stores hd (hnr.mono (by omega)) (by omega)
    obtain ⟨hd', he', hf', hin', hP'⟩ := hslot.stored_eq hd
    rw [← hctl] at hd' he' hf' hin' hP'
    have hbound : prepareBound (stateAt s (st + 16 * halfPeriod s.ctl + 1)).ctl rest.length
        = prepareBound s.ctl rest.length := by rw [prepareBound, hP', prepareBound]
    have hlen := congrArg List.length hin'
    rw [List.length_append, List.length_singleton] at hlen
    obtain ⟨k, hk, hended⟩ := ih hd' he' hf' (busyR_of_free hb hfree hnr (by omega))
      (by rw [stateAt_params]; omega) (by rw [hbound]; exact noReset_stateAt hnr (by omega))
      (by rw [hbound]; intro j hj; rw [inputAt_stateAt]; exact hfree _ (by omega))
    rw [← stateAt_add] at hended
    rw [hbound] at hk
    exact ⟨_, by omega, hended.disp, hended.resp, hended.fifoOut, by rw [hended.fifoIn]; omega⟩

/-- Settles O54: START is one cycle, PREPARE to RESPOND at most `prepareBound`. -/
theorem transactionEndsWithAFreeTarget : Obligations.TransactionEndsWithAFreeTarget := by
  intro s hd he hb hroom bound hnr hfree
  have hP : bound = 1 + prepareBound s.ctl s.ctl.fifoOut.length := by
    unfold prepareBound halfPeriod
    omega
  rw [hP] at hnr hfree ⊢
  have hctl : (stateAt s 1).ctl = { s.ctl with bit := 0, eng := .prepare } :=
    ctl_succ_of_engine (hnr 0 (by omega)) rfl hd (engineRule_start he)
  have hbound : prepareBound (stateAt s 1).ctl s.ctl.fifoOut.length = prepareBound s.ctl s.ctl.fifoOut.length := by
    rw [hctl]; rfl
  obtain ⟨k, hk, hended⟩ := ends_from_prepare (s := stateAt s 1) s.ctl.fifoOut (by rw [hctl]; exact hd) (by rw [hctl])
    (by rw [hctl]) (busyR_of_free hb hfree hnr (by omega)) (by rw [hctl, stateAt_params]; exact hroom)
    (by rw [hbound]; exact noReset_stateAt hnr le_rfl)
    (by rw [hbound]; intro j hj; rw [inputAt_stateAt]; exact hfree _ (by omega))
  rw [← stateAt_add] at hended
  rw [hbound] at hk
  refine ⟨1 + k, by omega, after_iff.mpr ⟨hended.disp, hended.resp, hended.fifoOut, ?_⟩⟩
  rw [hended.fifoIn, hctl]

/-! ### A transaction that has ended was full duplex (rules R67, R157) -/

theorem engineRule_tx (v : Seen) (c : Control) : (engineRule v c).tx = none := by
  unfold engineRule
  split <;> rfl

/-- In SEND_TRANSACTION nothing is sent to the host. -/
theorem sent_eq_of_engine {s : State} {k : Nat} (hnr : NoReset k s)
    (hd : ∀ j < k, (stateAt s j).ctl.disp = .sendTransaction) : (stateAt s k).sent = s.sent := by
  induction k with
  | zero => rfl
  | succ k ih =>
    rw [stateAt_succ_of_running (hnr k (by omega)), clockCycle_sent, dispRule_engine (hd k (by omega)), engineRule_tx,
      ih (hnr.mono (by omega)) (fun j hj => hd j (by omega))]
    exact List.append_nil _

/-- WAIT_NOT_BUSY holds on, or it has ended on a tick. -/
theorem wait_cases {s : State} {k : Nat} (hd : s.ctl.disp = .sendTransaction) (he : s.ctl.eng = .waitNotBusy)
    (hnr : NoReset k s) :
    (stateAt s k).ctl = s.ctl ∨
      ∃ w < k, (stateAt s (w + 1)).ctl = startBit 0 s.ctl ∧ (stateAt s (w + 1)).prim.sclkCtr = 0 := by
  induction k with
  | zero => exact .inl rfl
  | succ k ih =>
    obtain hctl | ⟨w, hw, hfired⟩ := ih (hnr.mono (by omega))
    · have hr := hnr k (by omega)
      have hnext := ctl_succ_of_engine hr hctl hd (engineRule_waitNotBusy he)
      split at hnext
      next hfire =>
        obtain ⟨-, htick⟩ := hfire
        rw [onChannel_prim] at htick
        exact .inr ⟨k, by omega, hnext, by rw [sclkCtr_succ hr hctl, dividerNext_of_tick htick]⟩
      next => exact .inl hnext
    · exact .inr ⟨w, by omega, hfired⟩

section
variable {s : State} {b : Byte} {rest : List Byte} {st k : Nat}

/-- All through a byte the dispatcher stays in SEND_TRANSACTION. -/
theorem SlotStart.disp_eq (h : SlotStart s b rest st) (hd : s.ctl.disp = .sendTransaction) {n : Nat}
    (hn : n < 16 * halfPeriod s.ctl) (hnr : NoReset (st + n) s) :
    (stateAt s (st + n)).ctl.disp = .sendTransaction := by
  have hpos : 0 < 2 * halfPeriod s.ctl := Nat.mul_pos (by omega) (halfPeriod_pos _)
  have hi : n / (2 * halfPeriod s.ctl) < 8 := by
    rw [Nat.div_lt_iff_lt_mul hpos]
    omega
  have hj : n % (2 * halfPeriod s.ctl) < 2 * halfPeriod (stateAt s st).ctl := by
    rw [h.halfPeriod_eq]
    exact Nat.mod_lt _ hpos
  have hsplit : 2 * (n / (2 * halfPeriod s.ctl)) * halfPeriod (stateAt s st).ctl + n % (2 * halfPeriod s.ctl) = n := by
    rw [h.halfPeriod_eq, Nat.mul_right_comm]
    exact Nat.div_add_mod _ _
  have hin := (h.byteStart hd).in_period hi hj (by rw [hsplit]; exact noReset_stateAt hnr le_rfl)
  rw [hsplit, ← stateAt_add] at hin
  exact hin.1

/-- With `IN` full, WRITEBACK holds on (rule R182, wait W6). -/
theorem SlotStart.stuck_of_full (h : SlotStart s b rest st) (hd : s.ctl.disp = .sendTransaction)
    (hfull : s.ctl.fifoIn.length = s.params.inDepth) (hnr : NoReset k s) (hk : st + 16 * halfPeriod s.ctl ≤ k) :
    (stateAt s k).ctl.disp = .sendTransaction := by
  obtain ⟨n, rfl⟩ := Nat.exists_eq_add_of_le hk
  have hctl := h.at_writeback hd (hnr.mono (by omega))
  have hdisp : (stateAt s (st + 16 * halfPeriod s.ctl)).ctl.disp = .sendTransaction := by
    rw [hctl]; exact (h.byteStart hd).disp
  have hin : (stateAt s (st + 16 * halfPeriod s.ctl)).ctl.fifoIn = s.ctl.fifoIn := by rw [hctl]; exact h.fifoIn_eq
  have hheld := reached_of_holds (s := stateAt s (st + 16 * halfPeriod s.ctl)) (k := n) (noReset_stateAt hnr le_rfl)
    fun j _ _ => by
      rw [dispRule_engine hdisp, engineRule_writeback (by rw [hctl]; rfl), if_pos]
      rw [hin, hfull, onChannel_params, stateAt_params, stateAt_params]
  rw [stateAt_add, hheld.ctl, hdisp]

/-- A transaction that comes to its reply has begun the next byte, captured it and found room for it. -/
theorem slotStart_of_reply (hd : s.ctl.disp = .sendTransaction) (he : s.ctl.eng = .prepare)
    (hf : s.ctl.fifoOut = b :: rest) (hnr : NoReset k s) (hreply : (stateAt s k).ctl.disp = .respond) :
    ∃ st, SlotStart s b rest st ∧ s.ctl.fifoIn.length ≠ s.params.inDepth ∧ st + 16 * halfPeriod s.ctl < k := by
  have hnot : (stateAt s k).ctl.disp ≠ .sendTransaction := by simp [hreply]
  have hk : 0 < k := Nat.pos_of_ne_zero fun h0 => hnot (by rw [h0]; exact hd)
  have hload := prepare_loads hd he hf (hnr 0 hk)
  obtain ⟨n, rfl⟩ : ∃ n, k = 1 + n := ⟨k - 1, by omega⟩
  obtain hheld | ⟨w, hw, hctl, hctr⟩ := wait_cases (s := stateAt s 1) (k := n) (by rw [hload]; exact hd)
    (by rw [hload]; rfl) (noReset_stateAt hnr le_rfl)
  · rw [← stateAt_add, hload] at hheld
    exact (hnot (by rw [hheld]; exact hd)).elim
  rw [← stateAt_add] at hctl hctr
  rw [hload] at hctl
  have hslot : SlotStart s b rest (1 + (w + 1)) := ⟨hctr, hctl⟩
  have hle : 1 + (w + 1) + 16 * halfPeriod s.ctl ≤ 1 + n := by
    by_contra hlt
    have hin := hslot.disp_eq hd (n := n - (w + 1)) (by omega) (hnr.mono (by omega))
    rw [show 1 + (w + 1) + (n - (w + 1)) = 1 + n by omega] at hin
    exact hnot hin
  refine ⟨_, hslot, fun hfull => hnot (hslot.stuck_of_full hd hfull hnr hle), lt_of_le_of_ne hle fun heq => hnot ?_⟩
  rw [← heq, hslot.at_writeback hd (hnr.mono (by omega))]
  exact (hslot.byteStart hd).disp

end

/-! ### The slots -/

/-- The slot of `16 P` cycles from cycle `st` on, in which `b` is sent, `rest` still in `OUT`, and `x` captured. -/
structure Slot (P : Nat) (s : State) (st : Nat) (b : Byte) (rest : List Byte) (x : Byte) : Prop where
  start : (stateAt s st).ctl.eng = .clockLow ∧ (stateAt s st).ctl.bit = 0 ∧ (stateAt s st).prim.sclkCtr = 0 ∧
    (stateAt s st).ctl.tx = b ∧ (stateAt s st).ctl.fifoOut = rest
  line : ∀ i < 8, ∀ m < 2 * P, (stateAt s (st + 2 * i * P + m)).ctl.txdR = b.getLsbD i
  captured : ∀ i < 8, x.getLsbD i = (inputAt s (st + (2 * i + 2) * P - 2)).rxdIn

theorem SlotStart.slot {s : State} {b : Byte} {rest : List Byte} {st : Nat} (h : SlotStart s b rest st)
    (hd : s.ctl.disp = .sendTransaction) (hnr : NoReset (st + 16 * halfPeriod s.ctl) s) :
    Slot (halfPeriod s.ctl) s st b rest (byteRegs (stateAt s st)).sr where
  start := ⟨(h.byteStart hd).eng, (h.byteStart hd).bit, h.counter, by rw [h.ctl]; rfl, by rw [h.ctl]; rfl⟩
  line i hi m hm := by
    have hle : 2 * i * halfPeriod s.ctl ≤ 14 * halfPeriod s.ctl := Nat.mul_le_mul_right _ (by omega)
    have hin := (h.byteStart hd).in_period (j := m) hi (by rw [h.halfPeriod_eq]; exact hm)
      (by rw [h.halfPeriod_eq]; exact noReset_stateAt hnr (by omega))
    rw [h.halfPeriod_eq, ← stateAt_add, ← Nat.add_assoc] at hin
    rw [hin.2, h.ctl]
    rfl
  captured i hi := by
    have hpos : 2 * 1 ≤ (2 * i + 2) * halfPeriod s.ctl := Nat.mul_le_mul (by omega) (halfPeriod_pos _)
    rw [byteRegs_sr_getLsbD hi, sampleAt, h.halfPeriod_eq, inputAt_stateAt, Nat.add_sub_assoc hpos]

/-- A slot seen from `off` cycles earlier. -/
theorem Slot.shift {P off st : Nat} {s : State} {b x : Byte} {rest : List Byte} (hP : 0 < P)
    (h : Slot P (stateAt s off) st b rest x) : Slot P s (off + st) b rest x where
  start := by simpa only [← stateAt_add] using h.start
  line i hi m hm := by
    have hl := h.line i hi m hm
    rwa [← stateAt_add, ← Nat.add_assoc, ← Nat.add_assoc] at hl
  captured i hi := by
    have hpos : 2 * 1 ≤ (2 * i + 2) * P := Nat.mul_le_mul (by omega) hP
    rw [h.captured i hi, inputAt_stateAt]
    congr 2
    omega

/-- Bytes `out` have been sent and `captured` captured in slots of their own, in order, before cycle `k`. -/
structure Slots (P : Nat) (s : State) (k : Nat) (out captured : List Byte) (start : Nat → Nat) : Prop where
  length : captured.length = out.length
  slot : ∀ j < out.length, Slot P s (start j) (out.getD j 0) (out.drop (j + 1)) (captured.getD j 0)
  before : ∀ j < out.length, start j + 16 * P < k
  apart : ∀ j, j + 1 < out.length → start j + 16 * P < start (j + 1)

theorem Slots.shift {P off k : Nat} {s : State} {out captured : List Byte} {start : Nat → Nat} (hP : 0 < P)
    (h : Slots P (stateAt s off) k out captured start) :
    Slots P s (off + k) out captured fun j => off + start j where
  length := h.length
  slot j hj := (h.slot j hj).shift hP
  before j hj := by have := h.before j hj; omega
  apart j hj := by have := h.apart j hj; omega

/-- The starts of the slots, the first one at `st` and the others `off` cycles later than `start` says. -/
def consStart (st off : Nat) (start : Nat → Nat) : Nat → Nat
  | 0 => st
  | j + 1 => off + start j

/-- One slot before the others. -/
theorem Slots.cons {P st k : Nat} {s : State} {b x : Byte} {out captured : List Byte} {start : Nat → Nat}
    (h0 : Slot P s st b out x) (hP : 0 < P)
    (h : Slots P (stateAt s (st + 16 * P + 1)) k out captured start) :
    Slots P s (st + 16 * P + 1 + k) (b :: out) (x :: captured) (consStart st (st + 16 * P + 1) start) := by
  have hs := h.shift hP
  refine ⟨by simp [h.length], ?_, ?_, ?_⟩
  · rintro (_ | j) hj
    · exact h0
    · exact hs.slot j (by simpa using hj)
  · rintro (_ | j) hj
    · rw [consStart]; omega
    · exact hs.before j (by simpa using hj)
  · rintro (_ | j) hj
    · rw [consStart, consStart]; omega
    · exact hs.apart j (by simpa using hj)

theorem duplex_from_prepare {s : State} {k : Nat} (out : List Byte) (hd : s.ctl.disp = .sendTransaction)
    (he : s.ctl.eng = .prepare) (hf : s.ctl.fifoOut = out) (hnr : NoReset k s)
    (hsend : ∀ j < k, (stateAt s j).ctl.disp = .sendTransaction) (hreply : (stateAt s k).ctl.disp = .respond) :
    ∃ captured start, Slots (halfPeriod s.ctl) s k out captured start ∧ (stateAt s k).ctl.resp = replyDone ∧
      (stateAt s k).ctl.fifoOut = [] ∧ (stateAt s k).ctl.fifoIn = s.ctl.fifoIn ++ captured := by
  induction out generalizing s k with
  | nil =>
    have hk : 0 < k := Nat.pos_of_ne_zero fun h0 => by rw [h0, stateAt_zero, hd] at hreply; cases hreply
    have hctl := prepare_answers hd he hf (hnr 0 hk)
    have hone : k = 1 := by
      by_contra hne
      have h1 := hsend 1 (by omega)
      rw [hctl] at h1
      cases h1
    rw [hone, hctl]
    exact ⟨[], fun _ => 0, ⟨rfl, by simp, by simp, by simp⟩, rfl, hf, (List.append_nil _).symm⟩
  | cons b rest ih =>
    obtain ⟨st, hslot, hroom, hlt⟩ := slotStart_of_reply hd he hf hnr hreply
    obtain ⟨n, rfl⟩ : ∃ n, k = st + 16 * halfPeriod s.ctl + 1 + n := Nat.exists_eq_add_of_le hlt
    have hctl := hslot.stores hd (hnr.mono (by omega)) hroom
    obtain ⟨hd', he', hf', hin', hP'⟩ := hslot.stored_eq hd
    rw [← hctl] at hd' he' hf' hin' hP'
    obtain ⟨captured, start, hslots, hresp, hout, hin⟩ := ih (k := n) hd' he' hf' (noReset_stateAt hnr le_rfl)
      (fun j hj => by rw [← stateAt_add]; exact hsend _ (by omega)) (by rw [← stateAt_add]; exact hreply)
    rw [hP'] at hslots
    rw [← stateAt_add] at hresp hout hin
    refine ⟨_ :: captured, _, hslots.cons (hslot.slot hd (hnr.mono (by omega))) (halfPeriod_pos _), hresp, hout, ?_⟩
    rw [hin, hin', List.append_assoc, List.singleton_append]

/-- Settles O53: START is one cycle, and from PREPARE on every byte has its slot. -/
theorem transactionIsFullDuplex : Obligations.TransactionIsFullDuplex := by
  intro s k hd he hnr hsend hreply N P
  simp only [after_iff] at hsend hreply ⊢
  have hk : 0 < k := Nat.pos_of_ne_zero fun h0 => by rw [h0, stateAt_zero, hd] at hreply; cases hreply
  obtain ⟨n, rfl⟩ : ∃ n, k = 1 + n := ⟨k - 1, by omega⟩
  have hctl : (stateAt s 1).ctl = { s.ctl with bit := 0, eng := .prepare } :=
    ctl_succ_of_engine (hnr 0 hk) rfl hd (engineRule_start he)
  have hP : halfPeriod (stateAt s 1).ctl = P := by rw [hctl]; rfl
  have hin : (stateAt s 1).ctl.fifoIn = s.ctl.fifoIn := by rw [hctl]
  obtain ⟨captured, start, hslots, hresp, hout, hstored⟩ := duplex_from_prepare (s := stateAt s 1) (k := n)
    s.ctl.fifoOut (by rw [hctl]; exact hd) (by rw [hctl]) (by rw [hctl]) (noReset_stateAt hnr le_rfl)
    (fun j hj => by rw [← stateAt_add]; exact hsend _ (by omega)) (by rw [← stateAt_add]; exact hreply)
  rw [hP] at hslots
  rw [← stateAt_add] at hresp hout hstored
  rw [hin] at hstored
  have hall := hslots.shift (halfPeriod_pos s.ctl)
  refine ⟨captured, fun j => 1 + start j, hall.length, ⟨hresp, hout, sent_eq_of_engine hnr hsend, hstored⟩,
    fun j hj => ?_⟩
  have hslot := hall.slot j hj
  exact ⟨hall.before j hj, hall.apart j, hslot.start, fun i hi => ⟨hslot.line i hi, hslot.captured i hi⟩⟩

end Sys2Proof.Transaction
end
